-- ==== Sys2Proof/Syntax.lean ====
section
/-! DEFINITION. The eight commands of the opcode table (R85), which stand where a processor has instructions
(R2). Operands are the numbers their fields hold (R82). -/

namespace Sys2Proof

/-- The panel variant (R83): the operand of INIT and the content of `CFG_VARIANT`. -/
inductive Variant where
  | linear
  | interleaved
deriving DecidableEq, Repr

/-- The display transform mode (R83). -/
inductive Mode where
  | overwrite
  | invert
  | xor
deriving DecidableEq, Repr

/-- One constructor per row of the opcode table, its operands in the order of the assembler syntax of R89. -/
inductive Instr where
  /-- `new(width, height)` and the variant flag, R111. -/
  | init (width height : Nat) (variant : Variant)
  /-- `clear(value)`, R113. -/
  | clear (value : Bool)
  /-- `get_pixel(x, y)`, R115. -/
  | getpx (x y : Nat)
  /-- `write_region(x, y, w, h, bits)`, R136. -/
  | wrreg (x y width height : Nat)
  /-- `draw_char(x, y, c, font, mode)`, R160. -/
  | dchar (x y c font : Nat) (mode : Mode)
  /-- `draw_string(x, y, str, font, mode, spacing)`, R163. -/
  | dstr (x y len spacing font : Nat) (mode : Mode)
  /-- `to_physical(panel_variant, logical_row)`, R186. -/
  | xlate (row : Nat)
  /-- The page index and the in-page bit of a row, R188. -/
  | pageof (y : Nat)
deriving DecidableEq, Repr

end Sys2Proof
end

