-- ==== Sys2Proof/WellFormed.lean ====
section
/-! DEFINITION. The commands that a 64-bit word can spell: every operand fits its field (R81, R82). -/

namespace Sys2Proof

/-- `x`, `y`, `w`, `h` range over 0..4095 (R82). -/
def fitsCoord (n : Nat) : Bool := n < 4096

/-- `ch` ranges over 0..255 (R82). -/
def fitsChar (n : Nat) : Bool := n < 256

/-- `font` ranges over 0..3 (R82). -/
def fitsFont (n : Nat) : Bool := n < 4

/-- A command whose operands fit the fields of its format (R81, R82, R84). -/
def Instr.wf : Instr → Bool
  | .init width height _ => fitsCoord width && fitsCoord height
  | .clear _ => true
  | .getpx x y => fitsCoord x && fitsCoord y
  | .wrreg x y width height => fitsCoord x && fitsCoord y && fitsCoord width && fitsCoord height
  | .dchar x y c font _ => fitsCoord x && fitsCoord y && fitsChar c && fitsFont font
  | .dstr x y len spacing font _ =>
    fitsCoord x && fitsCoord y && fitsCoord len && fitsCoord spacing && fitsFont font
  | .xlate row => fitsCoord row
  | .pageof y => fitsCoord y

end Sys2Proof
end

