-- ==== Sys2Proof/Word.lean ====
section
/-! DEFINITION. The two word types of the engine: the byte, which every memory holds (R52), and the 64-bit
command word (R80). -/

namespace Sys2Proof

/-- A byte, bit 7 its most significant bit (R9). -/
abbrev Byte := BitVec 8

/-- A command word: one value of exactly 64 bits, not split into bytes (R53, R80). -/
abbrev CmdWord := BitVec 64

end Sys2Proof
end

