-- ==== Sys2Proof/Decode.lean ====
section
/-! DEFINITION. The command word (R80 to R88): its fields, the total decoder, the encoder, and the opcode
table's match and mask pairs; the assembler syntax (R89). There is no byte order to settle: a word is one 64-bit value (R53). -/

namespace Sys2Proof

/-- The eight fields of a command word (R81), each an unsigned number (R82). -/
structure Fields where
  op   : Nat
  font : Nat
  mode : Nat
  ch   : Nat
  h    : Nat
  w    : Nat
  y    : Nat
  x    : Nat
deriving DecidableEq, Repr

/-- The fields of a word: `op` [63:60], `font` [59:58], `mode` [57:56], `ch` [55:48], `h` [47:36], `w` [35:24],
`y` [23:12], `x` [11:0] (R81). -/
def fieldsOf (cw : CmdWord) : Fields where
  op   := cw.toNat / 2 ^ 60 % 2 ^ 4
  font := cw.toNat / 2 ^ 58 % 2 ^ 2
  mode := cw.toNat / 2 ^ 56 % 2 ^ 2
  ch   := cw.toNat / 2 ^ 48 % 2 ^ 8
  h    := cw.toNat / 2 ^ 36 % 2 ^ 12
  w    := cw.toNat / 2 ^ 24 % 2 ^ 12
  y    := cw.toNat / 2 ^ 12 % 2 ^ 12
  x    := cw.toNat % 2 ^ 12

/-- The word of eight fields: R81's sum of products. -/
def wordOf (f : Fields) : CmdWord :=
  BitVec.ofNat 64 (f.op * 2 ^ 60 + f.font * 2 ^ 58 + f.mode * 2 ^ 56 + f.ch * 2 ^ 48
    + f.h * 2 ^ 36 + f.w * 2 ^ 24 + f.y * 2 ^ 12 + f.x)

/-- Why a word is illegal: the five cases of R86. The engine tells none of them from another: each ends with
BAD_COMMAND. -/
inductive Illegal where
  /-- `op` is 0x0 or 0x9..0xF. -/
  | opcode
  /-- A reserved field of the command's format is not 0. -/
  | reservedField
  /-- INIT's variant is 2 or 3. -/
  | variant
  /-- CLEAR's bit 57 is set. -/
  | clearValue
  /-- DCHAR's or DSTR's `mode` is 3. -/
  | mode
deriving DecidableEq, Repr

/-- Field `mode` as INIT's panel variant (R83). -/
def variantOfField : Nat → Option Variant
  | 0 => some .linear
  | 1 => some .interleaved
  | _ => none

/-- Field `mode` as CLEAR's value (R83): bit 57 must be 0. -/
def valueOfField : Nat → Option Bool
  | 0 => some false
  | 1 => some true
  | _ => none

/-- Field `mode` as a display transform mode (R83). -/
def modeOfField : Nat → Option Mode
  | 0 => some .overwrite
  | 1 => some .invert
  | 2 => some .xor
  | _ => none

/-- A decoded command if every reserved field is 0, `bad` if an enumerated field holds no value of its
enumeration. -/
def legalIf {α : Type} (reserved : List Nat) (bad : Illegal) (e : Option α) (mk : α → Instr) :
    Except Illegal Instr :=
  if reserved.all (· == 0) then
    match e with
    | some a => .ok (mk a)
    | none => .error bad
  else .error .reservedField

/-- `Decode` (R88), by fields. -/
def decodeFields (f : Fields) : Except Illegal Instr :=
  match f.op with
  | 1 => legalIf [f.font, f.ch, f.y, f.x] .variant (variantOfField f.mode) (.init f.w f.h)
  | 2 => legalIf [f.font, f.ch, f.h, f.w, f.y, f.x] .clearValue (valueOfField f.mode) .clear
  | 3 => legalIf [f.font, f.mode, f.ch, f.h, f.w] .reservedField (some ()) fun _ => .getpx f.x f.y
  | 4 => legalIf [f.font, f.mode, f.ch] .reservedField (some ()) fun _ => .wrreg f.x f.y f.w f.h
  | 5 => legalIf [f.h, f.w] .mode (modeOfField f.mode) (.dchar f.x f.y f.ch f.font)
  | 6 => legalIf [f.ch] .mode (modeOfField f.mode) (.dstr f.x f.y f.w f.h f.font)
  | 7 => legalIf [f.font, f.mode, f.ch, f.h, f.w, f.x] .reservedField (some ()) fun _ => .xlate f.y
  | 8 => legalIf [f.font, f.mode, f.ch, f.h, f.w, f.x] .reservedField (some ()) fun _ => .pageof f.y
  | _ => .error .opcode

/-- `Decode` (R88), total on all 2^64 words. -/
def decode (cw : CmdWord) : Except Illegal Instr := decodeFields (fieldsOf cw)

/-- The decoder, for the host: the command in the low `nbits` bits of `w`, the bits above them 0. -/
def decodeTableWord (nbits w : Nat) : Option Instr :=
  if w % 2 ^ nbits < 2 ^ 64 then (decode (BitVec.ofNat 64 (w % 2 ^ nbits))).toOption else none

/-- Field `mode` of INIT (R83). -/
def variantField : Variant → Nat
  | .linear => 0
  | .interleaved => 1

/-- Field `mode` of DCHAR and DSTR (R83). -/
def modeField : Mode → Nat
  | .overwrite => 0
  | .invert => 1
  | .xor => 2

/-- The fields of a command, by the formats of R84. -/
def fieldsOfInstr : Instr → Fields
  | .init width height variant => ⟨1, 0, variantField variant, 0, height, width, 0, 0⟩
  | .clear value => ⟨2, 0, value.toNat, 0, 0, 0, 0, 0⟩
  | .getpx x y => ⟨3, 0, 0, 0, 0, 0, y, x⟩
  | .wrreg x y width height => ⟨4, 0, 0, 0, height, width, y, x⟩
  | .dchar x y c font mode => ⟨5, font, modeField mode, c, 0, 0, y, x⟩
  | .dstr x y len spacing font mode => ⟨6, font, modeField mode, 0, spacing, len, y, x⟩
  | .xlate row => ⟨7, 0, 0, 0, 0, 0, row, 0⟩
  | .pageof y => ⟨8, 0, 0, 0, 0, 0, y, 0⟩

/-- The word of a command. -/
def encode (i : Instr) : CmdWord := wordOf (fieldsOfInstr i)

/-- A row of the opcode map (R85). -/
structure OpcodeRow where
  mnemonic : String
  matchVal : CmdWord
  mask     : CmdWord
  /-- The extra condition `mode ≠ 3`, which a mask cannot express. -/
  notMode3 : Bool
deriving DecidableEq, Repr

/-- The opcode map of R85, its match and mask columns as they stand there. -/
def opcodeRows : List OpcodeRow :=
  [⟨"INIT",   0x1000000000000000, 0xFEFF000000FFFFFF, false⟩,
   ⟨"CLEAR",  0x2000000000000000, 0xFEFFFFFFFFFFFFFF, false⟩,
   ⟨"GETPX",  0x3000000000000000, 0xFFFFFFFFFF000000, false⟩,
   ⟨"WRREG",  0x4000000000000000, 0xFFFF000000000000, false⟩,
   ⟨"DCHAR",  0x5000000000000000, 0xF000FFFFFF000000, true⟩,
   ⟨"DSTR",   0x6000000000000000, 0xF0FF000000000000, true⟩,
   ⟨"XLATE",  0x7000000000000000, 0xFFFFFFFFFF000FFF, false⟩,
   ⟨"PAGEOF", 0x8000000000000000, 0xFFFFFFFFFF000FFF, false⟩]

/-- A word selects a row of the opcode map (R85). -/
def selects (cw : CmdWord) (r : OpcodeRow) : Bool :=
  cw &&& r.mask == r.matchVal && (!r.notMode3 || (fieldsOf cw).mode != 3)

/-- The row of the opcode map that a command belongs to. -/
def mnemonicOf : Instr → String
  | .init .. => "INIT"
  | .clear .. => "CLEAR"
  | .getpx .. => "GETPX"
  | .wrreg .. => "WRREG"
  | .dchar .. => "DCHAR"
  | .dstr .. => "DSTR"
  | .xlate .. => "XLATE"
  | .pageof .. => "PAGEOF"

/-- A command in the assembler syntax of R89, its numbers in decimal. -/
def assembly (i : Instr) : String :=
  let line := fun (operands : List String) => mnemonicOf i ++ " " ++ ", ".intercalate operands
  let variant : Variant → String := fun
    | .linear => "LINEAR"
    | .interleaved => "INTERLEAVED"
  let mode : Mode → String := fun
    | .overwrite => "OVERWRITE"
    | .invert => "INVERT"
    | .xor => "XOR"
  match i with
  | .init width height v => line [width.repr, height.repr, variant v]
  | .clear value => line [value.toNat.repr]
  | .getpx x y => line [x.repr, y.repr]
  | .wrreg x y width height => line [x.repr, y.repr, width.repr, height.repr]
  | .dchar x y c font m => line [x.repr, y.repr, c.repr, font.repr, mode m]
  | .dstr x y len spacing font m => line [x.repr, y.repr, len.repr, spacing.repr, font.repr, mode m]
  | .xlate row => line [row.repr]
  | .pageof y => line [y.repr]

end Sys2Proof
end

