-- ==== Sys2Proof/Config.lean ====
section
/-! DEFINITION. What is fixed for one engine and open in the spec: the parameters of R7 (plain data, held by
`State.params`, so that a statement about every state is one about every value of them), the instance of them
that the spec's vectors use, and the free values, which no definition gives a value. -/

namespace Sys2Proof

/-- A font: the Glyph record `(width, height, bytesPerChar, data)` of R150. R151's constraints on it are
`Machine.fontWf`. -/
structure Font where
  fw   : Nat
  fh   : Nat
  bpc  : Nat
  data : List Byte
deriving DecidableEq, Repr

/-- `FONTS` (R7): the partial map from the font ids 0..3 to fonts. -/
structure FontSet where
  font0 : Option Font
  font1 : Option Font
  font2 : Option Font
  font3 : Option Font
deriving DecidableEq, Repr

/-- `INVERT_FN` (R7, R155) as its truth table: the field `g1c0` is the function's value at glyph bit 1 and
current pixel 0. -/
structure InvertTable where
  g0c0 : Bool
  g0c1 : Bool
  g1c0 : Bool
  g1c1 : Bool
deriving DecidableEq, Repr

/-- The parameters that R7 leaves open. `COORD_W` = 12 and `CMD_W` = 64 are fixed, and stand in the types and
in `Instr.wf`. -/
structure Params where
  fbCapacity  : Nat
  opbCapacity : Nat
  fonts       : FontSet
  invertFn    : InvertTable
deriving DecidableEq, Repr

/-- The answer of the transport to one SEND record (R201). -/
inductive Ack where
  | ok
  | fail
deriving DecidableEq, Repr, Inhabited

namespace Config

/-- The free value of U8: the acknowledgement of a SEND record for which `State.transport` lists no answer,
by the number of such draws before it. Log 5. -/
opaque freeAck : Nat → Ack

/-- The free value of U5 (R34, R250): the byte of `OPB` at an address that the host has not written since the
last reset, by the number of resets so far. Log 4. -/
opaque freeOpbByte : Nat → Nat → Byte

/-- The free value of U6 (R33, R250): a byte of `FB` outside the allocated part, by the number of resets so
far. Log 3. -/
opaque freeFbByte : Nat → Nat → Byte

/-- What an unlisted byte of the allocated part of `FB` reads as: INIT zero-fills it (R111). -/
abbrev fbBlank : Option Byte := some 0

/-- `OPB` has no such value: an unlisted byte is the free value `freeOpbByte` (R34). -/
abbrev opbBlank : Option Byte := none

/-- The default of `INVERT_FN`: `NOT g` (R7, R155). -/
def invertNotG : InvertTable := ⟨true, true, false, false⟩

/-- The test font `T5x3` of `95_test_vectors.md` section 0. -/
def t5x3 : Font where
  fw := 5
  fh := 3
  bpc := 3
  data := (List.range 285).map fun a => BitVec.ofNat 8 ((a / 3 + 0x20 + 3 * (a % 3)) % 32 * 8 + 5)

/-- The test font `T8x16` of `95_test_vectors.md` section 0. -/
def t8x16 : Font where
  fw := 8
  fh := 16
  bpc := 16
  data := (List.range 1520).map fun a => BitVec.ofNat 8 (7 * (a / 16 + 0x20) + 13 * (a % 16) + 1)

/-- The test font `T12x2` of `95_test_vectors.md` section 0, whose fifth byte per character is never used. -/
def t12x2 : Font where
  fw := 12
  fh := 2
  bpc := 5
  data := (List.range 475).map fun a =>
    if a % 5 = 4 then 0xEE else BitVec.ofNat 8 (3 * (a / 5 + 0x20) + 29 * (a % 5) + 0x80)

/-- The instance of the parameters that `95_test_vectors.md` section 0 uses, "a test choice, not a claim about
any product". `State.reset` has it: DESIGN CHOICE, log 1. -/
def vectorParams : Params where
  fbCapacity := 1024
  opbCapacity := 256
  fonts := ⟨some t5x3, some t8x16, some t12x2, none⟩
  invertFn := invertNotG

end Config

end Sys2Proof
end

