-- ==== Sys2Proof/Machine/State.lean ====
section
/-! DEFINITION. The state of the engine (R20) and of its surroundings: the nine elements of R20, the parameters
of R7, and, as plain data, what the host and the transport are about to do and what the engine has handed out.
Then the state after reset (R250). -/

namespace Sys2Proof.Machine

/-- A byte memory: the bytes that differ from what an unlisted address reads as, by strictly rising address
(`Memory.wf`). -/
abbrev Memory := List Host.Cell

/-- A SEND record (R200): a physical row number, the command/data flag, and the bytes of the row. -/
structure SendRecord where
  addr      : Nat
  isCommand : Bool
  bytes     : List Byte
deriving DecidableEq, Repr

/-- What the surroundings do while the engine waits for the answer to a SEND record. -/
inductive TransportEvent where
  /-- The transport answers (R201). -/
  | ack (a : Ack)
  /-- The engine is reset during the command (R250). -/
  | reset
  /-- The transport never answers, and nobody resets the engine (R258, U9). -/
  | never
deriving DecidableEq, Repr

/-- What the host can do while no command is in progress (R28, R34), and the reset (R250). -/
inductive HostAction where
  /-- Write a register by its number. A write of register 0, `CMD`, executes the word. -/
  | writeReg (no : Nat) (value : CmdWord)
  /-- Read a register by its number. -/
  | readReg (no : Nat)
  /-- Write one byte of the operand buffer. -/
  | writeOpb (addr : Nat) (value : Byte)
  /-- Read one byte of the operand buffer. -/
  | readOpb (addr : Nat)
  /-- Reset the engine. -/
  | reset
deriving DecidableEq, Repr

/-- What a read of the host returned. -/
inductive HostData where
  /-- The register's bits, zero-extended to 32. -/
  | reg (value : BitVec 32)
  /-- A byte of the operand buffer. -/
  | byte (value : Byte)
deriving DecidableEq, Repr

/-- Why the engine stops. -/
inductive Fault where
  /-- Raised by CLEAR, WRREG, DCHAR and DSTR at a SEND record that the transport never answers (R258): the
  command never ends and no later one starts, U9's `stuck`. Safe: the engine does not go on either. -/
  | transportNeverAnswers
deriving DecidableEq, Repr

/-- What the model gives no meaning. -/
inductive Refusal where
  /-- An arm of `exec` whose instruction has no meaning yet; none is left. Safe. -/
  | notModelled (mnemonic : String)
  /-- Raised by DCHAR and DSTR when the font of that id breaks R151: such a `FONTS` "is outside the model", and
  U4 gives it the treatment `refuse`. Safe: no hardware has it. -/
  | fontOutsideModel (id : Nat)
deriving DecidableEq, Repr

/-- The state. The first nine fields are R20's; `params` is R7's and no step changes it; the rest is the model's
own: the surroundings' next moves, two counters of free draws, and the two outputs. -/
structure State where
  /-- `CFG_W`, register 3. -/
  cfgW       : BitVec 12
  /-- `CFG_H`, register 4. -/
  cfgH       : BitVec 12
  /-- `CFG_VARIANT`, register 5: of its four 2-bit values, 2 and 3 are never stored (R28). -/
  cfgVariant : Variant
  /-- `FLAGS.CONFIGURED` (R25). -/
  configured : Bool
  /-- `FLAGS.FAULT` (R26). -/
  fault      : Bool
  /-- `STATUS`, register 1 (R30). -/
  status     : BitVec 4
  /-- `RESULT`, register 2 (R31): `B` is [31:16], `A` is [15:0]. -/
  result     : BitVec 32
  /-- `FB` (R33): the bytes of its allocated part that are not 0. -/
  fb         : Memory
  /-- `OPB` (R34): the bytes the host has written since reset. -/
  opb        : Memory
  /-- The parameters of R7. -/
  params     : Params
  /-- The host's next moves, the first of them first. -/
  host       : List HostAction
  /-- The transport's next moves, one for each SEND record, the first of them first. -/
  transport  : List TransportEvent
  /-- How many acknowledgements were drawn freely (`Config.freeAck`). -/
  ackDraws   : Nat
  /-- How many resets have happened: the contents of `FB` and `OPB` are drawn anew at each. -/
  resets     : Nat
  /-- The SEND records emitted so far, the oldest first. -/
  sends      : List SendRecord
  /-- What the host has read so far, the oldest first. -/
  reads      : List HostData
deriving DecidableEq, Repr

/-- The three outcomes of a step of this machine. -/
abbrev Result := Host.Outcome State Fault Refusal

/-- The machine after reset (R250): every register and flag 0, `FB` and `OPB` unspecified (nothing listed, see
`State.fbByte` and `State.opbByte`). The parameters are those of the spec's vectors (log 1). -/
def State.reset : State where
  cfgW := 0
  cfgH := 0
  cfgVariant := .linear
  configured := false
  fault := false
  status := 0
  result := 0
  fb := []
  opb := []
  params := Config.vectorParams
  host := []
  transport := []
  ackDraws := 0
  resets := 0
  sends := []
  reads := []

end Sys2Proof.Machine
end

