-- ==== Sys2Proof/Machine/Memory.lean ====
section
/-! DEFINITION. The operations on a byte memory in its canonical form. Every access of the engine is one byte
(R52, R56), so there is no wider one. -/

namespace Sys2Proof.Machine

/-- The listed byte at an address. -/
def Memory.find (m : Memory) (a : Nat) : Option Byte :=
  match m with
  | [] => none
  | c :: rest => if c.1 = a then some c.2 else Memory.find rest a

/-- The memory without an entry at an address. -/
def Memory.erase (m : Memory) (a : Nat) : Memory := m.filter fun c => c.1 ≠ a

/-- The memory with `b` listed at `a`, in place of any entry there. -/
def Memory.insert (m : Memory) (a : Nat) (b : Byte) : Memory :=
  match m with
  | [] => [(a, b)]
  | c :: rest =>
    if a < c.1 then (a, b) :: c :: rest
    else if c.1 = a then (a, b) :: rest
    else c :: Memory.insert rest a b

/-- Write a byte: the value that an unlisted address reads as is not listed. -/
def Memory.write (blank : Option Byte) (m : Memory) (a : Nat) (b : Byte) : Memory :=
  if blank = some b then Memory.erase m a else Memory.insert m a b

/-- Write `b` at every address below `n`: the loop `for a in 0 .. n - 1` of INIT and CLEAR. -/
def Memory.fill (blank : Option Byte) (m : Memory) (n : Nat) (b : Byte) : Memory :=
  (if blank = some b then [] else (List.range n).map fun a => (a, b)) ++ m.filter fun c => n ≤ c.1

/-- The canonical form: addresses strictly rise, and no entry is what an unlisted address reads as. -/
abbrev Memory.wf (blank : Option Byte) (m : Memory) : Prop :=
  m.Pairwise (fun c d => c.1 < d.1) ∧ ∀ c ∈ m, blank ≠ some c.2

/-- Every entry lies below `n`. -/
abbrev Memory.below (n : Nat) (m : Memory) : Prop := ∀ c ∈ m, c.1 < n

end Sys2Proof.Machine
end

