-- ==== Sys2Proof/Machine/Operands.lean ====
section
/-! DEFINITION. The quantities that the commands' rules name: byte and pixel positions (R8 to R11, R51), the
region mask (R132), glyphs (R150 to R155), the address translator (R180 to R185). All of them are numbers
without wrap-around (R8). -/

namespace Sys2Proof.Machine

/-- `ceil8(w)`: the bytes that hold `w` packed bits (R8). -/
def ceil8 (w : Nat) : Nat := (w + 7) / 8

/-- Pixel `p` of a byte, 0 the leftmost: bit `7 - p` (R10). -/
def pixelOf (b : Byte) (p : Nat) : Bool := b.getLsbD (7 - p)

/-- The byte whose pixel `p` is `g p` (R10). -/
def packByte (g : Nat → Bool) : Byte :=
  BitVec.ofNat 8 ((List.range 8).foldl (fun n p => 2 * n + (g p).toNat) 0)

/-- `high(n)`: the byte whose top `n` bits are 1 (R10). -/
def highMask (n : Nat) : Byte := (0xFF : Byte) <<< (8 - n)

/-- `low(n)`: the byte whose low `n` bits are 1 (R10). -/
def lowMask (n : Nat) : Byte := (0xFF : Byte) >>> (8 - n)

/-- `CFG_W` as a number. -/
def State.width (s : State) : Nat := s.cfgW.toNat

/-- `CFG_H` as a number. -/
def State.height (s : State) : Nat := s.cfgH.toNat

/-- `BPR`, the bytes of a framebuffer row (R11). -/
def State.bpr (s : State) : Nat := ceil8 s.width

/-- The length of the allocated part of `FB` (R33). -/
def State.fbSize (s : State) : Nat := s.height * s.bpr

/-- `Index(j, y)`: where byte `j` of row `y` stands in `FB`, for rows of `bpr` bytes (R51). -/
def fbIndex (bpr j y : Nat) : Nat := y * bpr + j

/-- A byte of an allocated `FB`: an unlisted one is 0, which INIT wrote (R111). -/
def fbRead (fb : Memory) (a : Nat) : Byte := (Memory.find fb a).getD 0

/-- `FB[a]`. Outside the allocated part, where no command reads (R33), it is a free value: log 3. -/
def State.fbByte (s : State) (a : Nat) : Byte :=
  if a < s.fbSize then fbRead s.fb a else Config.freeFbByte s.resets a

/-- `Pix(x, y)`, the stored pixel (R11). -/
def State.pix (s : State) (x y : Nat) : Bool := pixelOf (s.fbByte (fbIndex s.bpr (x / 8) y)) (x % 8)

/-- `OPB[a]`. A byte the host has not written since reset is a free value (R34, log 4); an address from
`OPB_CAPACITY` up reads 0 (R34, V8). -/
def State.opbByte (s : State) (a : Nat) : Byte :=
  if a < s.params.opbCapacity then (Memory.find s.opb a).getD (Config.freeOpbByte s.resets a) else 0

/-- `SrcPix(q, i)`: pixel `(q, i)` of a region's source of `width` pixels a row (R130). -/
def srcPix (source : Nat → Byte) (width q i : Nat) : Bool :=
  pixelOf (source (i * ceil8 width + q / 8)) (q % 8)

/-- `RegionMask(j, x, width)` in R132's closed form, for the bytes `j` that the region touches. -/
def regionMask (j x width : Nat) : Byte :=
  (if j = x / 8 then lowMask (8 - x % 8) else 0xFF) &&&
  (if j = (x + width - 1) / 8 ∧ (x + width) % 8 ≠ 0 then highMask ((x + width) % 8) else 0xFF)

/-- R151's constraints on a font. -/
def fontWf (f : Font) : Bool :=
  1 ≤ f.fw && f.fw ≤ 4095 && 1 ≤ f.fh && f.fh ≤ 4095 && f.fh * ceil8 f.fw ≤ f.bpc &&
    f.data.length == 95 * f.bpc

/-- `FONTS[id]` (R150): there may be none. -/
def fontOf (fonts : FontSet) : Nat → Option Font
  | 0 => fonts.font0
  | 1 => fonts.font1
  | 2 => fonts.font2
  | 3 => fonts.font3
  | _ => none

/-- `Subst(c)`: a code outside the printable range draws the space glyph (R154). -/
def substChar (c : Nat) : Nat := if 0x20 ≤ c ∧ c ≤ 0x7E then c else 0x20

/-- `GlyphPix(f, c, j, i)`: pixel `(j, i)` of the glyph of a printable code (R152, R153). -/
def glyphPix (f : Font) (c j i : Nat) : Bool :=
  pixelOf (f.data.getD ((c - 0x20) * f.bpc + i * ceil8 f.fw + j / 8) 0) (j % 8)

/-- `INVERT_FN(g, cp)`, read off the parameter's truth table (R155). -/
def applyInvert (t : InvertTable) : Bool → Bool → Bool
  | false, false => t.g0c0
  | false, true => t.g0c1
  | true, false => t.g1c0
  | true, true => t.g1c1

/-- `T(mode, g, cp)`: the display transform (R155). -/
def transformPixel (p : Params) (mode : Mode) (g cp : Bool) : Bool :=
  match mode with
  | .overwrite => g
  | .xor => g != cp
  | .invert => applyInvert p.invertFn g cp

/-- `ToPhysical(variant, r)` on a panel of `height` rows (R181, R182). -/
def toPhysical (variant : Variant) (height r : Nat) : Nat :=
  match variant with
  | .linear => r
  | .interleaved => if r % 2 = 0 then r / 2 else (r - 1) / 2 + height / 2

/-- The page of `PageOf(y)` (R185). -/
def pageIndex (y : Nat) : Nat := y / 8

/-- The in-page bit of `PageOf(y)` (R185). -/
def pageBit (y : Nat) : Nat := y % 8

end Sys2Proof.Machine
end

