-- ==== Sys2Proof/Machine/Flags.lean ====
section
/-! DEFINITION. The status codes (R220), the halves of `RESULT` (R31) and the host's view of the registers
(R28). The engine has no arithmetic condition codes (R27). -/

namespace Sys2Proof.Machine

/-- The named status codes of R220. -/
inductive Status where
  | ok
  | outOfBounds
  | transportFailure
  /-- Reserved: the document's taxonomy has it and no command raises it (V4). -/
  | unsupportedCharacter
  | allocFailure
  | badCommand
  | notConfigured
  | badConfig
  | operandRange
deriving DecidableEq, Repr

/-- The codes of R220. -/
def statusCode : Status → BitVec 4
  | .ok => 0
  | .outOfBounds => 1
  | .transportFailure => 2
  | .unsupportedCharacter => 3
  | .allocFailure => 4
  | .badCommand => 5
  | .notConfigured => 6
  | .badConfig => 7
  | .operandRange => 8

/-- `RESULT` with the halves `B` = [31:16] and `A` = [15:0], each zero-extended (R11, R31). -/
def packResult (b a : Nat) : BitVec 32 := BitVec.ofNat 16 b ++ BitVec.ofNat 16 a

/-- `RESULT.A`. -/
def resultA (r : BitVec 32) : BitVec 16 := r.extractLsb' 0 16

/-- `RESULT.B`. -/
def resultB (r : BitVec 32) : BitVec 16 := r.extractLsb' 16 16

/-- `FLAGS`: `CONFIGURED` in bit 0, `FAULT` in bit 1, bits [31:2] read as 0 (R28). -/
def flagsWord (s : State) : BitVec 32 := BitVec.ofNat 32 (s.configured.toNat + 2 * s.fault.toNat)

/-- The 2-bit content of `CFG_VARIANT` (R28). -/
def variantCode : Variant → BitVec 32
  | .linear => 0
  | .interleaved => 1

/-- The bits the host reads from a register (R28): `CMD` and the numbers from 7 up read 0, and so does every
bit above a register's own (V6). -/
def readRegister (s : State) : Nat → BitVec 32
  | 1 => s.status.setWidth 32
  | 2 => s.result
  | 3 => s.cfgW.setWidth 32
  | 4 => s.cfgH.setWidth 32
  | 5 => variantCode s.cfgVariant
  | 6 => flagsWord s
  | _ => 0

end Sys2Proof.Machine
end

