-- ==== Sys2Proof/Machine/Update.lean ====
section
/-! DEFINITION. The writes of the state's fields, each under a name of its own. `Laws/State.lean` says of each what
it changes and what it leaves. -/

namespace Sys2Proof.Machine

/-- `STATUS <- code(e)` (R30). -/
def State.withStatus (s : State) (e : Status) : State := { s with status := statusCode e }

/-- `RESULT.B <- b; RESULT.A <- a` (R31). -/
def State.withResult (s : State) (b a : Nat) : State := { s with result := packResult b a }

/-- `FLAGS.FAULT <- 1` (R26). -/
def State.withFault (s : State) : State := { s with fault := true }

/-- INIT's writes of the configuration (R29) and of `FLAGS.CONFIGURED` (R25). -/
def State.withConfig (s : State) (width height : Nat) (variant : Variant) : State :=
  { s with
    cfgW := BitVec.ofNat 12 width, cfgH := BitVec.ofNat 12 height, cfgVariant := variant,
    configured := true }

/-- `FB` with new contents. -/
def State.withFb (s : State) (m : Memory) : State := { s with fb := m }

/-- `OPB` with new contents. -/
def State.withOpb (s : State) (m : Memory) : State := { s with opb := m }

/-- The host's moves that are still to come. -/
def State.withHost (s : State) (moves : List HostAction) : State := { s with host := moves }

/-- The transport's moves that are still to come. -/
def State.withTransport (s : State) (events : List TransportEvent) : State :=
  { s with transport := events }

/-- One more acknowledgement drawn freely. -/
def State.withDraw (s : State) : State := { s with ackDraws := s.ackDraws + 1 }

/-- One more SEND record handed out (R200). -/
def State.withSend (s : State) (r : SendRecord) : State := { s with sends := s.sends ++ [r] }

/-- One more value handed to the host. -/
def State.withRead (s : State) (d : HostData) : State := { s with reads := s.reads ++ [d] }

/-- The reset (R250): every register and flag 0, both memories unspecified. The parameters are constants, the
records already emitted stay emitted, and the surroundings' further moves are theirs. -/
def State.afterReset (s : State) : State :=
  { State.reset with
    params := s.params, host := s.host, transport := s.transport, ackDraws := s.ackDraws,
    resets := s.resets + 1, sends := s.sends, reads := s.reads }

end Sys2Proof.Machine
end

