-- ==== Sys2Proof/Machine/Ops.lean ====
section
/-! DEFINITION. The operations the commands share: raising a status, which is all the exception entry there is
(R222, R229; nothing returns from one, R230), a SEND record and the refresh step (R201, R203), the
region merge (R132) and the glyph (R156). -/

namespace Sys2Proof.Machine

/-- `raise E` (R222): the command ends here, and of the state only `STATUS` changes. -/
def raise (e : Status) (s : State) : Result := .next (s.withStatus e)

/-- The command ends with `STATUS <- OK`. -/
def complete (s : State) : Result := .next (s.withStatus .ok)

/-- Where a command stands after an operation that may end it: in progress, or ended. -/
inductive Progress where
  | going (s : State)
  | ended (r : Result)
deriving Repr

/-- The surroundings' next move during a command: the listed one, or else an acknowledgement drawn freely (R201,
U8). -/
def takeEvent (s : State) : TransportEvent × State :=
  match s.transport with
  | e :: rest => (e, s.withTransport rest)
  | [] => (.ack (Config.freeAck s.ackDraws), s.withDraw)

/-- The bytes of row `r`, leftmost first, pad bits included (R54, R203). -/
def rowBytes (s : State) (r : Nat) : List Byte :=
  (List.range s.bpr).map fun j => s.fbByte (fbIndex s.bpr j r)

/-- The SEND record that refreshes logical row `r` (R203). The engine sends no panel command, so `is_command` is
0 (R202). -/
def rowRecord (s : State) (r : Nat) : SendRecord where
  addr := toPhysical s.cfgVariant s.height r
  isCommand := false
  bytes := rowBytes s r

/-- `Send` (R201): the record goes out, then the engine waits. -/
def send (r : SendRecord) (s : State) : TransportEvent × State := takeEvent (s.withSend r)

/-- The body of `FlushRows` over a list of logical rows (R203). A `fail` ends the command with TRANSPORT_FAILURE
(R205), a reset abandons it (R250), and without an answer it never ends (R258). -/
def flushEach : List Nat → State → Progress
  | [], s => .going s
  | r :: rest, s =>
    match send (rowRecord s r) s with
    | (.ack .ok, s') => flushEach rest s'
    | (.ack .fail, s') => .ended (raise .transportFailure s')
    | (.reset, s') => .ended (.next s'.afterReset)
    | (.never, _) => .ended (.fault .transportNeverAnswers)

/-- `FlushRows(y0, n)` (R203): rows `y0 .. y0 + n - 1` in rising order. -/
def flushRows (y0 n : Nat) (s : State) : Progress := flushEach (List.range' y0 n) s

/-- One byte of `MergeRegion` (R132): the byte `k` of the region's row `i`. -/
def mergeByte (bpr x y width : Nat) (source : Nat → Byte) (i k : Nat) (fb : Memory) : Memory :=
  let j := x / 8 + k
  let bo := x % 8
  let prev := if 1 ≤ k then source (i * ceil8 width + k - 1) else 0
  let cur := if k < ceil8 width then source (i * ceil8 width + k) else 0
  let sh := (prev <<< (8 - bo)) ||| (cur >>> bo)
  let m := regionMask j x width
  let old := fbRead fb (fbIndex bpr j (y + i))
  Memory.write Config.fbBlank fb (fbIndex bpr j (y + i)) ((old &&& ~~~m) ||| (sh &&& m))

/-- One row of `MergeRegion`: the bytes `byte_start .. byte_end`, once each (R132). -/
def mergeRow (bpr x y width : Nat) (source : Nat → Byte) (i : Nat) (fb : Memory) : Memory :=
  (List.range ((x + width - 1) / 8 - x / 8 + 1)).foldl
    (fun fb k => mergeByte bpr x y width source i k fb) fb

/-- `MergeRegion(x, y, width, height, source)` (R132) on an `FB` of `bpr` bytes a row. -/
def mergeRegion (bpr x y width height : Nat) (source : Nat → Byte) (fb : Memory) : Memory :=
  if width = 0 ∨ height = 0 then fb
  else (List.range height).foldl (fun fb i => mergeRow bpr x y width source i fb) fb

/-- `RenderChar(f, c, mode, x, y)` (R156): the temporary buffer, row-major, its pad bits 0. -/
def renderChar (f : Font) (c : Nat) (mode : Mode) (x y : Nat) (s : State) : List Byte :=
  (List.range (f.fh * ceil8 f.fw)).map fun a =>
    packByte fun p =>
      let i := a / ceil8 f.fw
      let j := 8 * (a % ceil8 f.fw) + p
      if j < f.fw then
        transformPixel s.params mode (glyphPix f (substChar c) j i) (s.pix (x + j) (y + i))
      else false

/-- RenderChar, then MergeRegion, then FlushRows: DCHAR's last three lines and one turn of DSTR's loop (R160,
R163). -/
def drawGlyph (f : Font) (c : Nat) (mode : Mode) (x y : Nat) (s : State) : Progress :=
  let tmp := renderChar f c mode x y s
  flushRows y f.fh (s.withFb (mergeRegion s.bpr x y f.fw f.fh (fun a => tmp.getD a 0) s.fb))

/-- DSTR's loop over the characters still to draw, with its cursor and its count (R163), and the write of
`RESULT` that follows it. -/
def drawString (f : Font) (mode : Mode) (spacing y : Nat) :
    List Nat → (cur n : Nat) → State → Progress
  | [], _, n, s => .going (s.withResult 0 n)
  | c :: rest, cur, n, s =>
    if cur + f.fw > s.width then .going (s.withResult 0 n)
    else if y + f.fh > s.height then .ended (raise .outOfBounds s)
    else
      match drawGlyph f c mode cur y s with
      | .going s' => drawString f mode spacing y rest (cur + f.fw + spacing) (n + 1) s'
      | .ended r => .ended r

/-- `STATUS <- OK` if the command is still in progress. -/
def finish : Progress → Result
  | .going s => complete s
  | .ended r => r

end Sys2Proof.Machine
end

