-- ==== Sys2Proof/Machine/Framebuffer.lean ====
section
/-! DEFINITION. The Framebuffer's commands: INIT, CLEAR, GETPX (`40_framebuffer.md`). -/

namespace Sys2Proof.Machine

/-- INIT (R111). -/
def execInit (width height : Nat) (variant : Variant) (s : State) : Result :=
  if s.configured then raise .badConfig s
  else if width = 0 ∨ height = 0 then raise .badConfig s
  else if variant = .interleaved ∧ height % 2 = 1 then raise .badConfig s
  else if height * ceil8 width > s.params.fbCapacity then raise .allocFailure s.withFault
  else
    complete ((s.withConfig width height variant).withFb
      (Memory.fill Config.fbBlank s.fb (height * ceil8 width) 0x00))

/-- CLEAR (R113). -/
def execClear (value : Bool) (s : State) : Result :=
  if s.configured = false then raise .notConfigured s
  else
    finish (flushRows 0 s.height
      (s.withFb (Memory.fill Config.fbBlank s.fb s.fbSize (if value then 0xFF else 0x00))))

/-- GETPX (R115). -/
def execGetpx (x y : Nat) (s : State) : Result :=
  if s.configured = false then raise .notConfigured s
  else if x ≥ s.width ∨ y ≥ s.height then raise .outOfBounds s
  else complete (s.withResult 0 (s.pix x y).toNat)

end Sys2Proof.Machine
end

