-- ==== Sys2Proof/Machine/Glyph.lean ====
section
/-! DEFINITION. The Glyph Rasterizer's commands: DCHAR, DSTR (`42_glyph_rasterizer.md`). -/

namespace Sys2Proof.Machine

/-- DCHAR (R160). -/
def execDchar (x y c font : Nat) (mode : Mode) (s : State) : Result :=
  if s.configured = false then raise .notConfigured s
  else
    match fontOf s.params.fonts font with
    | none => raise .operandRange s
    | some f =>
      if fontWf f = false then .refused (.fontOutsideModel font)
      else if x + f.fw > s.width ∨ y + f.fh > s.height then raise .outOfBounds s
      else finish (drawGlyph f c mode x y s)

/-- DSTR (R163): the string is `OPB[0 .. len - 1]`, one code a byte. -/
def execDstr (x y len spacing font : Nat) (mode : Mode) (s : State) : Result :=
  if s.configured = false then raise .notConfigured s
  else
    match fontOf s.params.fonts font with
    | none => raise .operandRange s
    | some f =>
      if len > s.params.opbCapacity then raise .operandRange s
      else if fontWf f = false then .refused (.fontOutsideModel font)
      else
        finish (drawString f mode spacing y ((List.range len).map fun a => (s.opbByte a).toNat) x 0 s)

end Sys2Proof.Machine
end

