-- ==== Sys2Proof/Machine/RegionWriter.lean ====
section
/-! DEFINITION. The Pixel-Region Writer's command: WRREG (`41_region_writer.md`). -/

namespace Sys2Proof.Machine

/-- WRREG (R136): the source is `OPB` from address 0. -/
def execWrreg (x y width height : Nat) (s : State) : Result :=
  if s.configured = false then raise .notConfigured s
  else if height * ceil8 width > s.params.opbCapacity then raise .operandRange s
  else if x + width > s.width ∨ y + height > s.height then raise .outOfBounds s
  else if 0 < width ∧ 0 < height then
    finish (flushRows y height (s.withFb (mergeRegion s.bpr x y width height s.opbByte s.fb)))
  else complete s

end Sys2Proof.Machine
end

