-- ==== Sys2Proof/Machine/Translator.lean ====
section
/-! DEFINITION. The Address Translator's commands: XLATE, PAGEOF (`43_address_translator.md`). -/

namespace Sys2Proof.Machine

/-- XLATE (R186). -/
def execXlate (row : Nat) (s : State) : Result :=
  if s.configured = false then raise .notConfigured s
  else if row ≥ s.height then raise .outOfBounds s
  else complete (s.withResult 0 (toPhysical s.cfgVariant s.height row))

/-- PAGEOF (R188). -/
def execPageof (y : Nat) (s : State) : Result :=
  if s.configured = false then raise .notConfigured s
  else if y ≥ s.height then raise .outOfBounds s
  else complete (s.withResult (pageIndex y) (pageBit y))

end Sys2Proof.Machine
end

