-- ==== Sys2Proof/Machine/Dispatch.lean ====
section
/-! DEFINITION. Which meaning each command of the opcode table has. -/

namespace Sys2Proof.Machine

-- The rule of a decoded command (R223's last line). The two checks before it are `execute`'s.
def exec (i : Instr) (s : State) : Host.Outcome State Fault Refusal :=
  match i with
  | .init width height variant => Sys2Proof.Machine.execInit width height variant s
  | .clear value => Sys2Proof.Machine.execClear value s
  | .getpx x y => Sys2Proof.Machine.execGetpx x y s
  | .wrreg x y width height => Sys2Proof.Machine.execWrreg x y width height s
  | .dchar x y c font mode => Sys2Proof.Machine.execDchar x y c font mode s
  | .dstr x y len spacing font mode => Sys2Proof.Machine.execDstr x y len spacing font mode s
  | .xlate row => Sys2Proof.Machine.execXlate row s
  | .pageof y => Sys2Proof.Machine.execPageof y s

end Sys2Proof.Machine
end

