-- ==== Sys2Proof/Machine/HostPort.lean ====
section
/-! DEFINITION. The host's side: the common entry of every command (R223), the registers and the operand buffer
as the host reaches them (R28, R34), and the host's moves one at a time, each to its end (R24, R60). Then the
pseudo-instructions (R90), which are lists of moves. -/

namespace Sys2Proof.Machine

/-- `Execute(cw)` (R223): a faulted engine ignores the word (R26), an illegal word ends with BAD_COMMAND (R225),
and every other runs its command's rule. -/
def execute (cw : CmdWord) (s : State) : Result :=
  if s.fault then .next s
  else
    match decode cw with
    | .ok i => exec i s
    | .error _ => raise .badCommand s

/-- A register write (R28): only `CMD` can be written; any other write has no effect. -/
def writeRegister (no : Nat) (value : CmdWord) (s : State) : Result :=
  if no = 0 then execute value s else .next s

/-- A host write of `OPB`: ignored from `OPB_CAPACITY` up (R34). -/
def writeOpbByte (addr : Nat) (value : Byte) (s : State) : State :=
  if addr < s.params.opbCapacity then s.withOpb (Memory.write Config.opbBlank s.opb addr value) else s

/-- One move of the host. A read changes nothing but the model's record of what was read (R28, R57). -/
def hostMove (m : HostAction) (s : State) : Result :=
  match m with
  | .writeReg no value => writeRegister no value s
  | .readReg no => .next (s.withRead (.reg (readRegister s no)))
  | .writeOpb addr value => .next (writeOpbByte addr value s)
  | .readOpb addr => .next (s.withRead (.byte (s.opbByte addr)))
  | .reset => .next s.afterReset

/-- The engine takes the host's next move; while there is none it is idle (R24, R250). -/
def hostStep (s : State) : Result :=
  match s.host with
  | [] => .next s
  | m :: rest => hostMove m (s.withHost rest)

/-- The host's next move is to write a command word to `CMD`. -/
def issueWord (cw : CmdWord) (s : State) : State := s.withHost (.writeReg 0 cw :: s.host)

/-- The host's write of one command. -/
def issueMove (i : Instr) : HostAction := .writeReg 0 (encode i)

/-- `OPB[0..] = b0 b1 ...` (R89). -/
def fillOpb (source : List Byte) : List HostAction := source.zipIdx.map fun p => .writeOpb p.2 p.1

/-- The pseudo-instruction `CLS` (R90). -/
def clsMoves : List HostAction := [issueMove (.clear false)]

/-- The pseudo-instruction `TEXT` (R90). -/
def textMoves (x y : Nat) (chars : List Byte) (spacing font : Nat) (mode : Mode) : List HostAction :=
  fillOpb chars ++ [issueMove (.dstr x y chars.length spacing font mode)]

/-- The pseudo-instruction `BLIT` (R90). -/
def blitMoves (x y width height : Nat) (source : List Byte) : List HostAction :=
  fillOpb source ++ [issueMove (.wrreg x y width height)]

end Sys2Proof.Machine
end

