-- ==== Sys2Proof/Machine/Step.lean ====
section
/-! DEFINITION. One step of the machine: the host's next move, and with it, if that is a write of `CMD`, one whole
command, which is atomic (R12). -/

namespace Sys2Proof.Machine

/-- One step. -/
def step (s : State) : Host.Outcome State Fault Refusal := hostStep s

/-- The state in which the host's next move writes the command in the low `nbits` bits of `w` to `CMD`. There is
no program counter and nothing is fetched (R24): log 7. -/
def State.withFetchWord (s : State) (nbits w : Nat) : State :=
  issueWord (BitVec.ofNat 64 (w % 2 ^ nbits)) s

end Sys2Proof.Machine
end

