-- ==== Sys2Proof/Safety.lean ====
section
/-! DEFINITION. What a safe run keeps: the raster invariant (R110), the canonical form of the memories, what the
fault flag and `STATUS` can hold. And the words the statements use for the transport's answers and for the pad
bits. -/

namespace Sys2Proof.Machine

/-- R110 (a) and (b), and R25: before INIT the configuration registers are 0. -/
def State.RasterInv (s : State) : Prop :=
  (s.configured = true →
    1 ≤ s.width ∧ 1 ≤ s.height ∧ (s.cfgVariant = .interleaved → s.height % 2 = 0) ∧
      s.fbSize ≤ s.params.fbCapacity) ∧
  (s.configured = false → s.width = 0 ∧ s.height = 0 ∧ s.cfgVariant = .linear)

/-- Both memories are in canonical form; `FB` lists nothing outside its allocated part (R110 (c)) and `OPB`
nothing from `OPB_CAPACITY` up (R34). -/
def State.MemoryInv (s : State) : Prop :=
  Memory.wf Config.fbBlank s.fb ∧ Memory.below s.fbSize s.fb ∧
  Memory.wf Config.opbBlank s.opb ∧ Memory.below s.params.opbCapacity s.opb

/-- In the fault state `STATUS` is ALLOC_FAILURE and the engine is not configured (R26, R226). -/
def State.FaultInv (s : State) : Prop :=
  s.fault = true → s.status = statusCode .allocFailure ∧ s.configured = false

/-- The codes that some command writes: not the reserved 3, none from 9 up (R220). -/
def writtenCode (c : BitVec 4) : Prop := c.toNat ≤ 8 ∧ c ≠ statusCode .unsupportedCharacter

/-- The invariant of the engine. -/
structure State.Inv (s : State) : Prop where
  raster : s.RasterInv
  memory : s.MemoryInv
  fault  : s.FaultInv
  status : writtenCode s.status

/-- Every pad bit of the raster is `b` (R33, R110 (d)): the pad bits of row `r` are the positions `CFG_W` up to
`8 * BPR`, which `State.pix` reads as it reads a pixel. -/
def State.PadsAre (s : State) (b : Bool) : Prop :=
  ∀ r c, r < s.height → s.width ≤ c → c < 8 * s.bpr → s.pix c r = b

/-- Every font of the platform meets R151. -/
def platformFontsWf (p : Params) : Prop := ∀ id f, fontOf p.fonts id = some f → fontWf f = true

/-- The transport acknowledges the next `n` SEND records with `ok`, and then has `rest` to say. -/
def State.Acknowledged (s : State) (n : Nat) (rest : List TransportEvent) : Prop :=
  s.transport = List.replicate n (.ack .ok) ++ rest

/-- The transport acknowledges the next `n` SEND records with `ok`; then `e` happens. -/
def State.AcknowledgedThen (s : State) (n : Nat) (e : TransportEvent) (rest : List TransportEvent) : Prop :=
  s.transport = List.replicate n (.ack .ok) ++ e :: rest

/-- The command ended with a status other than OK and TRANSPORT_FAILURE (R204): it was rejected. -/
def rejected (c : BitVec 4) : Prop := c ≠ statusCode .ok ∧ c ≠ statusCode .transportFailure

/-- A run may end here only if the host has nothing left to do and the engine has not met the fatal fault: "a
model must treat the fault state as never final" (R226). -/
def State.mayEnd (s : State) : Bool := s.host.isEmpty && !s.fault

/-- How many glyphs a DSTR of `len` characters draws before the next one would cross the right edge (R163). -/
def glyphsThatFit (rasterWidth fw spacing x len : Nat) : Nat :=
  if x + fw ≤ rasterWidth then min len ((rasterWidth - x - fw) / (fw + spacing) + 1) else 0

/-- DCHARs of the listed characters, one after another, the cursor advancing by `advance` (R163). -/
def dcharsInTurn (y advance font : Nat) (mode : Mode) : List Nat → Nat → State → Result
  | [], _, s => .next s
  | c :: rest, cur, s =>
    match exec (.dchar cur y c font mode) s with
    | .next t => dcharsInTurn y advance font mode rest (cur + advance) t
    | r => r

/-- The command, a string cut to its first `n` characters. -/
def firstChars (n : Nat) : Instr → Instr
  | .dstr x y len spacing font mode => .dstr x y (min n len) spacing font mode
  | i => i

/-- `v` is what the command leaves, or a DSTR of some of its first characters, when every record is acknowledged:
the raster that a refresh step of the command reads (R203), however the transport then answers. -/
def refreshedAs (i : Instr) (s v : State) : Prop :=
  ∃ n, 0 < n ∧
    exec (firstChars n i) { s with transport := List.replicate (n * s.height) (.ack .ok) } = .next v

end Sys2Proof.Machine
end

