-- ==== Sys2Proof/Certificates/Slice0/Obligations.lean ====
section
/-! DEFINITION. The statements for the provers. Status codes stand as their numbers of R220: 0 OK, 1 OUT_OF_BOUNDS,
2 TRANSPORT_FAILURE, 4 ALLOC_FAILURE, 5 BAD_COMMAND, 6 NOT_CONFIGURED, 7 BAD_CONFIG, 8 OPERAND_RANGE. -/

open Sys2Proof Sys2Proof.Machine

/-! ## The command word -/

/-- The worked encodings of R91, each decoded. -/
def Obligations.DecodesTheWorkedEncodings : Prop :=
  decode 0x1000020040000000 = .ok (.init 64 32 .linear) ∧
  decode 0x1100008010000000 = .ok (.init 16 8 .interleaved) ∧
  decode 0x2000000000000000 = .ok (.clear false) ∧
  decode 0x2100000000000000 = .ok (.clear true) ∧
  decode 0x3000000000000003 = .ok (.getpx 3 0) ∧
  decode 0x4000010008000003 = .ok (.wrreg 3 0 8 16) ∧
  decode 0x5441000000000003 = .ok (.dchar 3 0 0x41 1 .overwrite) ∧
  decode 0x5241000000001002 = .ok (.dchar 2 1 0x41 0 .xor) ∧
  decode 0x6000001004002001 = .ok (.dstr 1 2 4 1 0 .overwrite) ∧
  decode 0x7000000000005000 = .ok (.xlate 5) ∧
  decode 0x800000000000D000 = .ok (.pageof 13)

/-- R81: every field of a word is the number in its bits, and the word is the sum of its fields' places. -/
def Obligations.FieldsStandAtTheirPositions : Prop :=
  ∀ cw : CmdWord,
    (fieldsOf cw).op = (cw.extractLsb' 60 4).toNat ∧
    (fieldsOf cw).font = (cw.extractLsb' 58 2).toNat ∧
    (fieldsOf cw).mode = (cw.extractLsb' 56 2).toNat ∧
    (fieldsOf cw).ch = (cw.extractLsb' 48 8).toNat ∧
    (fieldsOf cw).h = (cw.extractLsb' 36 12).toNat ∧
    (fieldsOf cw).w = (cw.extractLsb' 24 12).toNat ∧
    (fieldsOf cw).y = (cw.extractLsb' 12 12).toNat ∧
    (fieldsOf cw).x = (cw.extractLsb' 0 12).toNat ∧
    cw.toNat = (fieldsOf cw).op * 2 ^ 60 + (fieldsOf cw).font * 2 ^ 58 + (fieldsOf cw).mode * 2 ^ 56
      + (fieldsOf cw).ch * 2 ^ 48 + (fieldsOf cw).h * 2 ^ 36 + (fieldsOf cw).w * 2 ^ 24
      + (fieldsOf cw).y * 2 ^ 12 + (fieldsOf cw).x

/-- Decoding the word of a well-formed command gives the command back, with every operand at every value its
field admits. -/
def Obligations.DecodeOfEncodeIsTheCommand : Prop :=
  ∀ i : Instr, i.wf = true → decode (encode i) = .ok i

/-- A legal word is the word of the command it decodes to, which is well formed: no two words share a
meaning. -/
def Obligations.EncodeOfDecodeIsTheWord : Prop :=
  ∀ (cw : CmdWord) (i : Instr), decode cw = .ok i → i.wf = true ∧ encode i = cw

/-- The opcode map of R85 selects for every word the row of the command that R88's procedure decodes, and no row
for an illegal word. -/
def Obligations.OpcodeMapAgreesWithDecode : Prop :=
  ∀ (cw : CmdWord) (row : OpcodeRow), row ∈ opcodeRows →
    (selects cw row = true ↔ ∃ i, decode cw = .ok i ∧ mnemonicOf i = row.mnemonic)

/-- R86 and R225: the words that are illegal, by the cases of R86; and what the host's write of one to `CMD`
does, configured or not. -/
def Obligations.IllegalWordsOnlyReportBadCommand : Prop :=
  (∀ cw : CmdWord, (∃ e, decode cw = .error e) ↔
    let f := fieldsOf cw
    f.op = 0 ∨ 9 ≤ f.op ∨
    f.op = 1 ∧ (f.font ≠ 0 ∨ f.ch ≠ 0 ∨ f.y ≠ 0 ∨ f.x ≠ 0 ∨ cw.getLsbD 57 = true) ∨
    f.op = 2 ∧ (f.font ≠ 0 ∨ f.ch ≠ 0 ∨ f.h ≠ 0 ∨ f.w ≠ 0 ∨ f.y ≠ 0 ∨ f.x ≠ 0 ∨ cw.getLsbD 57 = true) ∨
    f.op = 3 ∧ (f.font ≠ 0 ∨ f.mode ≠ 0 ∨ f.ch ≠ 0 ∨ f.h ≠ 0 ∨ f.w ≠ 0) ∨
    f.op = 4 ∧ (f.font ≠ 0 ∨ f.mode ≠ 0 ∨ f.ch ≠ 0) ∨
    f.op = 5 ∧ (f.h ≠ 0 ∨ f.w ≠ 0 ∨ f.mode = 3) ∨
    f.op = 6 ∧ (f.ch ≠ 0 ∨ f.mode = 3) ∨
    (f.op = 7 ∨ f.op = 8) ∧
      (f.font ≠ 0 ∨ f.mode ≠ 0 ∨ f.ch ≠ 0 ∨ f.h ≠ 0 ∨ f.w ≠ 0 ∨ f.x ≠ 0)) ∧
  (∃ e, decode 0 = .error e) ∧ (∃ e, decode (BitVec.allOnes 64) = .error e) ∧
  ∀ (s : State) (cw : CmdWord) (rest : List HostAction) (e : Illegal),
    s.host = .writeReg 0 cw :: rest → s.fault = false → decode cw = .error e →
    step s = .next { s with host := rest, status := 5 }

/-! ## The step and the host -/

/-- R223: a write of `CMD` on an engine without the fatal fault runs the decoded command, on the state in which
that move of the host is taken. -/
def Obligations.StepRunsTheDecodedCommand : Prop :=
  ∀ (s : State) (cw : CmdWord) (rest : List HostAction) (i : Instr),
    s.host = .writeReg 0 cw :: rest → s.fault = false → decode cw = .ok i →
    step s = exec i { s with host := rest }

/-- R26, R226: in the fault state every word is ignored; a step that is no reset leaves the fault, `STATUS` and
everything else but `OPB` and what the host has read. -/
def Obligations.FaultedEngineIgnoresEveryCommand : Prop :=
  (∀ (s : State) (cw : CmdWord) (rest : List HostAction),
    s.host = .writeReg 0 cw :: rest → s.fault = true → step s = .next { s with host := rest }) ∧
  (∀ s t : State, s.fault = true → step s = .next t → t.resets = s.resets →
    t = { s with host := t.host, opb := t.opb, reads := t.reads }) ∧
  (∀ s t : State, s.fault = true → step s = .next t → t.fault = false →
    ∃ rest, s.host = .reset :: rest)

/-- R28: what the host reads from each register number, and that its writes to any but `CMD` have no effect. A
read has no side effect. That a read has 32 bits, with zeros above the own bits of `CFG_W`, `CFG_H` and
`CFG_VARIANT`, is the model's choice (log 11): R28 gives the read no width, and V6 speaks of `STATUS` and `FLAGS`
only. -/
def Obligations.HostRegisterAccess : Prop :=
  (∀ (s : State) (no : Nat) (rest : List HostAction), s.host = .readReg no :: rest →
    ∃ v : BitVec 32, step s = .next { s with host := rest, reads := s.reads ++ [.reg v] } ∧
      (no = 1 → v.toNat = s.status.toNat) ∧
      (no = 2 → v = s.result) ∧
      (no = 3 → v.toNat = s.cfgW.toNat) ∧
      (no = 4 → v.toNat = s.cfgH.toNat) ∧
      (no = 5 → v = if s.cfgVariant = .interleaved then 1 else 0) ∧
      (no = 6 → v.getLsbD 0 = s.configured ∧ v.getLsbD 1 = s.fault ∧ ∀ b, 2 ≤ b → v.getLsbD b = false) ∧
      (no = 0 ∨ 7 ≤ no → v = 0)) ∧
  (∀ (s : State) (no : Nat) (value : CmdWord) (rest : List HostAction),
    s.host = .writeReg no value :: rest → no ≠ 0 → step s = .next { s with host := rest })

/-- R34: the host's writes and reads of `OPB`, one byte at a time; from `OPB_CAPACITY` up a write is ignored and a
read returns 0. -/
def Obligations.HostOperandBufferAccess : Prop :=
  (∀ (s : State) (a : Nat) (b : Byte) (rest : List HostAction), s.host = .writeOpb a b :: rest →
    ∃ m : Memory, step s = .next { s with host := rest, opb := m } ∧
      (∀ a', { s with opb := m }.opbByte a'
        = if a' = a ∧ a < s.params.opbCapacity then b else s.opbByte a') ∧
      (s.params.opbCapacity ≤ a → m = s.opb)) ∧
  (∀ (s : State) (a : Nat) (rest : List HostAction), s.host = .readOpb a :: rest →
    step s = .next { s with host := rest, reads := s.reads ++ [.byte (s.opbByte a)] }) ∧
  (∀ (s : State) (a : Nat), s.params.opbCapacity ≤ a → s.opbByte a = 0)

/-- R24, R60 (a): a step takes exactly one move of the host, the first. That a step of the idle engine, with no move
left, changes nothing is the model's choice (log 13). -/
def Obligations.EachStepTakesOneHostMove : Prop :=
  (∀ s t : State, step s = .next t → t.host = s.host.tail) ∧
  (∀ s : State, s.host = [] → step s = .next s)

/-! ## Reset -/

/-- R250: the registers and flags of `State.reset`, and its silent engine, whose step is the idle one (log 13). -/
def Obligations.ResetStateValues : Prop :=
  State.reset.cfgW = 0 ∧ State.reset.cfgH = 0 ∧ State.reset.cfgVariant = .linear ∧
  State.reset.configured = false ∧ State.reset.fault = false ∧ State.reset.status = 0 ∧
  State.reset.result = 0 ∧ State.reset.sends = [] ∧ step State.reset = .next State.reset

/-- R250, R34: a reset by the host from any state. A byte of `OPB` is then a free draw of that reset (log 4), and the
model's own fields are kept (log 9). -/
def Obligations.HostResetMove : Prop :=
  ∀ (s : State) (rest : List HostAction), s.host = .reset :: rest →
    ∃ t, step s = .next t ∧
      t.cfgW = 0 ∧ t.cfgH = 0 ∧ t.cfgVariant = .linear ∧ t.configured = false ∧ t.fault = false ∧
      t.status = 0 ∧ t.result = 0 ∧ t.sends = s.sends ∧ t.params = s.params ∧ t.host = rest ∧
      ∀ a, a < s.params.opbCapacity → t.opbByte a = Config.freeOpbByte (s.resets + 1) a

/-- R250: a reset during a command abandons it: the state is the reset state, and the records already emitted
stay emitted. And CLEAR shows that it can happen at every row. That it lands while a record waits for its answer, and
what of the model's own fields it keeps, is the model's reading (log 9). -/
def Obligations.AbandonedCommandIsAReset : Prop :=
  (∀ (i : Instr) (s t : State), exec i s = .next t → t.resets ≠ s.resets →
    s.sends <+: t.sends ∧
    t = { State.reset with
      params := s.params, host := s.host, reads := s.reads, resets := s.resets + 1,
      sends := t.sends, transport := t.transport, ackDraws := t.ackDraws }) ∧
  (∀ (s : State) (value : Bool) (k : Nat) (rest : List TransportEvent),
    s.configured = true → k < s.height → s.AcknowledgedThen k .reset rest →
    ∃ t, exec (.clear value) s = .next t ∧ t.resets = s.resets + 1 ∧ t.configured = false ∧
      t.sends.length = s.sends.length + (k + 1))

/-! ## The Framebuffer's commands -/

/-- R111: INIT's refusals in their order, and the raster it builds: every allocated byte is 0, and nothing is
written outside the allocated part. -/
def Obligations.InitConstructsOrRefuses : Prop :=
  ∀ (s : State) (width height : Nat) (variant : Variant),
    (Instr.init width height variant).wf = true →
    (s.configured = true ∨ width = 0 ∨ height = 0 ∨ (variant = .interleaved ∧ height % 2 = 1) →
      exec (.init width height variant) s = .next { s with status := 7 }) ∧
    (s.configured = false → 0 < width → 0 < height → (variant = .interleaved → height % 2 = 0) →
      (s.params.fbCapacity < height * ceil8 width →
        exec (.init width height variant) s = .next { s with status := 4, fault := true }) ∧
      (height * ceil8 width ≤ s.params.fbCapacity →
        ∃ t, exec (.init width height variant) s = .next t ∧
          t = { s with
            cfgW := t.cfgW, cfgH := t.cfgH, cfgVariant := variant, configured := true, status := 0,
            fb := t.fb } ∧
          t.cfgW.toNat = width ∧ t.cfgH.toNat = height ∧
          t.fbSize = height * ((width + 7) / 8) ∧ (∀ a, a < t.fbSize → t.fbByte a = 0x00) ∧
          ∀ a, t.fbSize ≤ a → fbRead t.fb a = fbRead s.fb a))

/-- R113: CLEAR fills every byte, pad bits included, then sends every row; a failed SEND ends it with the fill
complete and the later rows unsent. -/
def Obligations.ClearFillsAndRefreshes : Prop :=
  ∀ (s : State) (value : Bool),
    let v : Byte := if value then 0xFF else 0x00
    let record := fun r => SendRecord.mk (toPhysical s.cfgVariant s.height r) false (List.replicate s.bpr v)
    (s.configured = false → exec (.clear value) s = .next { s with status := 6 }) ∧
    (s.configured = true →
      ∃ m : Memory, (∀ a, a < s.fbSize → { s with fb := m }.fbByte a = v) ∧
        (∀ a, s.fbSize ≤ a → fbRead m a = fbRead s.fb a) ∧
        (∀ rest, s.Acknowledged s.height rest →
          exec (.clear value) s = .next { s with
            fb := m, status := 0, transport := rest,
            sends := s.sends ++ (List.range s.height).map record }) ∧
        (∀ k rest, k < s.height → s.AcknowledgedThen k (.ack .fail) rest →
          exec (.clear value) s = .next { s with
            fb := m, status := 2, transport := rest,
            sends := s.sends ++ (List.range (k + 1)).map record }))

/-- R115: GETPX. -/
def Obligations.GetpxReadsTheStoredPixel : Prop :=
  ∀ (s : State) (x y : Nat),
    (s.configured = false → exec (.getpx x y) s = .next { s with status := 6 }) ∧
    (s.configured = true → s.width ≤ x ∨ s.height ≤ y →
      exec (.getpx x y) s = .next { s with status := 1 }) ∧
    (s.configured = true → x < s.width → y < s.height →
      ∃ r : BitVec 32, exec (.getpx x y) s = .next { s with result := r, status := 0 } ∧
        (resultA r).toNat = ((s.fbByte (y * s.bpr + x / 8)).getLsbD (7 - x % 8)).toNat ∧
        (resultB r).toNat = 0)

/-! ## The Pixel-Region Writer -/

/-- R136's checks in their order, and the empty rectangle, which writes and sends nothing. -/
def Obligations.WrregChecksInOrder : Prop :=
  ∀ (s : State) (x y width height : Nat),
    (s.configured = false → exec (.wrreg x y width height) s = .next { s with status := 6 }) ∧
    (s.configured = true →
      (s.params.opbCapacity < height * ceil8 width →
        exec (.wrreg x y width height) s = .next { s with status := 8 }) ∧
      (height * ceil8 width ≤ s.params.opbCapacity →
        (s.width < x + width ∨ s.height < y + height →
          exec (.wrreg x y width height) s = .next { s with status := 1 }) ∧
        (x + width ≤ s.width → y + height ≤ s.height → width = 0 ∨ height = 0 →
          exec (.wrreg x y width height) s = .next { s with status := 0 })))

/-- R131: a region merge inside the raster gives the rectangle the source's pixels and leaves every pixel outside
it, and every pad bit, as before (`c` runs over the pad bits of a row too), whatever the source; an empty rectangle
changes none. WRREG of a rectangle that is not empty does so with `OPB`, and then sends the region's rows, top to
bottom, up to the first failure. -/
def Obligations.WrregMergesTheRegion : Prop :=
  (∀ (s : State) (x y width height : Nat) (source : Nat → Byte),
    x + width ≤ s.width → y + height ≤ s.height →
    ∀ c r, c < 8 * s.bpr → r < s.height →
      { s with fb := mergeRegion s.bpr x y width height source s.fb }.pix c r
        = if x ≤ c ∧ c < x + width ∧ y ≤ r ∧ r < y + height
          then srcPix source width (c - x) (r - y) else s.pix c r) ∧
  (∀ (s : State) (x y width height : Nat),
    s.configured = true → height * ceil8 width ≤ s.params.opbCapacity →
    x + width ≤ s.width → y + height ≤ s.height → 0 < width → 0 < height →
    ∃ m : Memory,
      (∀ c r, c < 8 * s.bpr → r < s.height →
        { s with fb := m }.pix c r
          = if x ≤ c ∧ c < x + width ∧ y ≤ r ∧ r < y + height
            then srcPix s.opbByte width (c - x) (r - y) else s.pix c r) ∧
      (∀ rest, s.Acknowledged height rest →
        exec (.wrreg x y width height) s = .next { s with
          fb := m, status := 0, transport := rest,
          sends := s.sends ++ (List.range' y height).map (rowRecord { s with fb := m }) }) ∧
      (∀ k rest, k < height → s.AcknowledgedThen k (.ack .fail) rest →
        exec (.wrreg x y width height) s = .next { s with
          fb := m, status := 2, transport := rest,
          sends := s.sends ++ (List.range' y (k + 1)).map (rowRecord { s with fb := m }) }))

/-- R135: a region aligned to byte boundaries is a direct byte copy, and no other byte changes. -/
def Obligations.AlignedWriteIsAByteCopy : Prop :=
  ∀ (s : State) (x y width height : Nat) (rest : List TransportEvent),
    s.configured = true → height * ceil8 width ≤ s.params.opbCapacity →
    x + width ≤ s.width → y + height ≤ s.height → x % 8 = 0 → width % 8 = 0 →
    s.Acknowledged height rest →
    ∃ t, exec (.wrreg x y width height) s = .next t ∧
      (∀ i k, i < height → k < width / 8 →
        t.fbByte ((y + i) * s.bpr + (x / 8 + k)) = s.opbByte (i * (width / 8) + k)) ∧
      ∀ a, (∀ i k, i < height → k < width / 8 → a ≠ (y + i) * s.bpr + (x / 8 + k)) →
        t.fbByte a = s.fbByte a

/-- R57: writing the same region twice leaves `FB` as writing it once; the records go out again. -/
def Obligations.WritingARegionTwiceIsIdempotent : Prop :=
  ∀ (s : State) (x y width height : Nat) (rest : List TransportEvent),
    s.configured = true → height * ceil8 width ≤ s.params.opbCapacity →
    x + width ≤ s.width → y + height ≤ s.height → 0 < width → 0 < height →
    s.Acknowledged (height + height) rest →
    ∃ t u, exec (.wrreg x y width height) s = .next t ∧ exec (.wrreg x y width height) t = .next u ∧
      (∀ a, u.fbByte a = t.fbByte a) ∧
      ∃ new, t.sends = s.sends ++ new ∧ u.sends = t.sends ++ new ∧ new.length = height

/-- R130: the Writer ignores the source's pad bits: two operand buffers with the same source pixels leave the same
raster. -/
def Obligations.SourcePadBitsAreIgnored : Prop :=
  ∀ (s t : State) (o : Memory) (x y width height : Nat),
    (∀ q i, q < width → i < height →
      srcPix { s with opb := o }.opbByte width q i = srcPix s.opbByte width q i) →
    exec (.wrreg x y width height) s = .next t →
    ∃ u, exec (.wrreg x y width height) { s with opb := o } = .next u ∧
      u.status = t.status ∧ u.sends = t.sends ∧ ∀ a, u.fbByte a = t.fbByte a

/-! ## The Glyph Rasterizer -/

/-- R160's checks in their order. -/
def Obligations.DcharChecksInOrder : Prop :=
  ∀ (s : State) (x y c font : Nat) (mode : Mode),
    (s.configured = false → exec (.dchar x y c font mode) s = .next { s with status := 6 }) ∧
    (s.configured = true → fontOf s.params.fonts font = none →
      exec (.dchar x y c font mode) s = .next { s with status := 8 }) ∧
    (∀ f, s.configured = true → fontOf s.params.fonts font = some f → fontWf f = true →
      s.width < x + f.fw ∨ s.height < y + f.fh →
      exec (.dchar x y c font mode) s = .next { s with status := 1 })

/-- R157 for DCHAR: inside the glyph's rectangle every pixel becomes the transform of the glyph's pixel and of the
pixel that was there; every other pixel and every pad bit is as before; then the glyph's rows go out, up to the
first failure. -/
def Obligations.DcharDrawsTheGlyph : Prop :=
  ∀ (s : State) (x y c font : Nat) (mode : Mode) (f : Font),
    s.configured = true → fontOf s.params.fonts font = some f → fontWf f = true →
    x + f.fw ≤ s.width → y + f.fh ≤ s.height →
    ∃ m : Memory,
      (∀ q r, q < 8 * s.bpr → r < s.height →
        { s with fb := m }.pix q r
          = if x ≤ q ∧ q < x + f.fw ∧ y ≤ r ∧ r < y + f.fh
            then transformPixel s.params mode (glyphPix f (substChar c) (q - x) (r - y)) (s.pix q r)
            else s.pix q r) ∧
      (∀ rest, s.Acknowledged f.fh rest →
        exec (.dchar x y c font mode) s = .next { s with
          fb := m, status := 0, transport := rest,
          sends := s.sends ++ (List.range' y f.fh).map (rowRecord { s with fb := m }) }) ∧
      (∀ k rest, k < f.fh → s.AcknowledgedThen k (.ack .fail) rest →
        exec (.dchar x y c font mode) s = .next { s with
          fb := m, status := 2, transport := rest,
          sends := s.sends ++ (List.range' y (k + 1)).map (rowRecord { s with fb := m }) })

/-- R155: the truth tables of the transform. Overwrite and Xor are the spec's for every parameter; Invert is the
parameter `INVERT_FN`, and under its default `NOT g` it is the table's last column. -/
def Obligations.TransformTruthTables : Prop :=
  (∀ (p : Params) (g cp : Bool),
    transformPixel p .overwrite g cp = g ∧ transformPixel p .xor g cp = Bool.xor g cp ∧
    transformPixel p .invert g cp = applyInvert p.invertFn g cp) ∧
  (∀ (p : Params) (g cp : Bool), p.invertFn = Config.invertNotG →
    transformPixel p .invert g cp = !g)

/-- R154: a character outside the printable range draws what the space draws. -/
def Obligations.UnprintableCodesDrawTheSpace : Prop :=
  ∀ (s : State) (x y c font : Nat) (mode : Mode), c < 0x20 ∨ 0x7E < c →
    exec (.dchar x y c font mode) s = exec (.dchar x y 0x20 font mode) s

/-- R158: drawing a glyph twice at one place, both refreshes acknowledged. Overwrite: as once. Xor: as before the
first. Invert under the default `NOT g`: as once. -/
def Obligations.DrawingAGlyphTwice : Prop :=
  ∀ (s : State) (x y c font : Nat) (mode : Mode) (f : Font) (rest : List TransportEvent),
    s.configured = true → fontOf s.params.fonts font = some f → fontWf f = true →
    x + f.fw ≤ s.width → y + f.fh ≤ s.height → s.Acknowledged (f.fh + f.fh) rest →
    ∃ t u, exec (.dchar x y c font mode) s = .next t ∧ exec (.dchar x y c font mode) t = .next u ∧
      (mode = .overwrite → ∀ a, u.fbByte a = t.fbByte a) ∧
      (mode = .xor → ∀ a, u.fbByte a = s.fbByte a) ∧
      (mode = .invert → s.params.invertFn = Config.invertNotG → ∀ a, u.fbByte a = t.fbByte a)

/-- R163's checks in their order, and the strings that draw nothing: an empty one, and one whose first glyph does
not fit the width, whatever `y` is. -/
def Obligations.DstrChecksInOrder : Prop :=
  ∀ (s : State) (x y len spacing font : Nat) (mode : Mode),
    (s.configured = false → exec (.dstr x y len spacing font mode) s = .next { s with status := 6 }) ∧
    (s.configured = true → fontOf s.params.fonts font = none ∨ s.params.opbCapacity < len →
      exec (.dstr x y len spacing font mode) s = .next { s with status := 8 }) ∧
    (∀ f, s.configured = true → fontOf s.params.fonts font = some f → fontWf f = true →
      len ≤ s.params.opbCapacity →
      (len = 0 ∨ s.width < x + f.fw →
        exec (.dstr x y len spacing font mode) s = .next { s with result := 0, status := 0 }) ∧
      (0 < len → x + f.fw ≤ s.width → s.height < y + f.fh →
        exec (.dstr x y len spacing font mode) s = .next { s with status := 1 }))

/-- R163: DSTR is as many DCHARs in turn as fit before the right edge, the cursor advancing by `fw + spacing`, and
`RESULT.A` is their number. `FB` and the SEND records are those of the DCHARs. -/
def Obligations.DstrIsSuccessiveDchars : Prop :=
  ∀ (s : State) (x y len spacing font : Nat) (mode : Mode) (f : Font) (rest : List TransportEvent),
    s.configured = true → fontOf s.params.fonts font = some f → fontWf f = true →
    len ≤ s.params.opbCapacity →
    (0 < glyphsThatFit s.width f.fw spacing x len → y + f.fh ≤ s.height) →
    s.Acknowledged (glyphsThatFit s.width f.fw spacing x len * f.fh) rest →
    ∃ (u : State) (r : BitVec 32),
      dcharsInTurn y (f.fw + spacing) font mode
        ((List.range (glyphsThatFit s.width f.fw spacing x len)).map fun t => (s.opbByte t).toNat) x s
          = .next u ∧
      exec (.dstr x y len spacing font mode) s = .next { u with result := r, status := 0 } ∧
      (resultA r).toNat = glyphsThatFit s.width f.fw spacing x len ∧ (resultB r).toNat = 0 ∧
      u.transport = rest ∧
      u.sends.length = s.sends.length + glyphsThatFit s.width f.fw spacing x len * f.fh

/-- R163, R157: what DSTR leaves in every pixel and pad bit: the transform in the cells of the drawn glyphs, the
old pixel everywhere else, the spacing columns and the columns of the first glyph that did not fit among them. -/
def Obligations.DstrPixels : Prop :=
  ∀ (s t : State) (x y len spacing font : Nat) (mode : Mode) (f : Font) (rest : List TransportEvent),
    s.configured = true → fontOf s.params.fonts font = some f →
    s.Acknowledged (glyphsThatFit s.width f.fw spacing x len * f.fh) rest →
    exec (.dstr x y len spacing font mode) s = .next t → t.status = 0 →
    ∀ c r, c < 8 * s.bpr → r < s.height →
      (∀ n, n < glyphsThatFit s.width f.fw spacing x len →
        x + n * (f.fw + spacing) ≤ c → c < x + n * (f.fw + spacing) + f.fw → y ≤ r → r < y + f.fh →
        t.pix c r = transformPixel s.params mode
          (glyphPix f (substChar (s.opbByte n).toNat) (c - (x + n * (f.fw + spacing))) (r - y))
          (s.pix c r)) ∧
      ((∀ n, n < glyphsThatFit s.width f.fw spacing x len →
        ¬ (x + n * (f.fw + spacing) ≤ c ∧ c < x + n * (f.fw + spacing) + f.fw ∧ y ≤ r ∧ r < y + f.fh)) →
        t.pix c r = s.pix c r)

/-- R163, R164: DSTR ends at the first failed SEND, the glyph then being refreshed and all before it drawn, the
later ones not, and `RESULT` unchanged: it is the DCHARs up to that glyph, the last of which fails. -/
def Obligations.DstrStopsAtTheFirstFailure : Prop :=
  ∀ (s : State) (x y len spacing font : Nat) (mode : Mode) (f : Font) (k : Nat)
    (rest : List TransportEvent),
    s.configured = true → fontOf s.params.fonts font = some f → fontWf f = true →
    len ≤ s.params.opbCapacity → y + f.fh ≤ s.height →
    k < glyphsThatFit s.width f.fw spacing x len * f.fh → s.AcknowledgedThen k (.ack .fail) rest →
    ∃ u, exec (.dstr x y len spacing font mode) s = .next u ∧
      dcharsInTurn y (f.fw + spacing) font mode
        ((List.range (k / f.fh + 1)).map fun t => (s.opbByte t).toNat) x s = .next u ∧
      u.status = 2 ∧ u.result = s.result ∧ u.transport = rest ∧
      u.sends.length = s.sends.length + (k + 1)

/-! ## The Address Translator -/

/-- R181, R182, R186: XLATE. -/
def Obligations.XlateAnswersThePhysicalRow : Prop :=
  ∀ (s : State) (row : Nat),
    (s.configured = false → exec (.xlate row) s = .next { s with status := 6 }) ∧
    (s.configured = true → s.height ≤ row → exec (.xlate row) s = .next { s with status := 1 }) ∧
    (s.configured = true → row < s.height →
      ∃ r : BitVec 32, exec (.xlate row) s = .next { s with result := r, status := 0 } ∧
        (resultB r).toNat = 0 ∧
        (s.cfgVariant = .linear → (resultA r).toNat = row) ∧
        (s.cfgVariant = .interleaved → row % 2 = 0 → (resultA r).toNat = row / 2) ∧
        (s.cfgVariant = .interleaved → row % 2 = 1 →
          (resultA r).toNat = (row - 1) / 2 + s.height / 2))

/-- R185, R188: PAGEOF. -/
def Obligations.PageofAnswersPageAndBit : Prop :=
  ∀ (s : State) (y : Nat),
    (s.configured = false → exec (.pageof y) s = .next { s with status := 6 }) ∧
    (s.configured = true → s.height ≤ y → exec (.pageof y) s = .next { s with status := 1 }) ∧
    (s.configured = true → y < s.height →
      ∃ r : BitVec 32, exec (.pageof y) s = .next { s with result := r, status := 0 } ∧
        (resultB r).toNat = y / 8 ∧ (resultA r).toNat = y % 8)

/-- R183: the Interleaved map of an even height is a bijection of `[0, height)`, with the inverse the rule gives;
of an odd height it is not; the Linear map is the identity. -/
def Obligations.InterleavedMapIsABijection : Prop :=
  (∀ m r, r < 2 * m →
    toPhysical .interleaved (2 * m) r < 2 * m ∧
    (toPhysical .interleaved (2 * m) r < m → r = 2 * toPhysical .interleaved (2 * m) r) ∧
    (m ≤ toPhysical .interleaved (2 * m) r → r = 2 * (toPhysical .interleaved (2 * m) r - m) + 1)) ∧
  (∀ m p, p < 2 * m →
    (p < m → 2 * p < 2 * m ∧ toPhysical .interleaved (2 * m) (2 * p) = p) ∧
    (m ≤ p → 2 * (p - m) + 1 < 2 * m ∧ toPhysical .interleaved (2 * m) (2 * (p - m) + 1) = p)) ∧
  (∀ m, toPhysical .interleaved (2 * m + 1) (2 * m) = m ∧ toPhysical .interleaved (2 * m + 1) 1 = m) ∧
  (∀ height r, toPhysical .linear height r = r)

/-! ## The whole machine -/

/-- R25, R232: before INIT every command but INIT is rejected with NOT_CONFIGURED, and nothing else happens. -/
def Obligations.UnconfiguredEngineAcceptsOnlyInit : Prop :=
  ∀ (i : Instr) (s : State), s.configured = false → (∀ w h v, i ≠ .init w h v) →
    exec i s = .next { s with status := 6 }

/-- R58, R222, R204: a rejected command has written `STATUS` only, and for ALLOC_FAILURE `FLAGS.FAULT`: no byte
of `FB`, no record. -/
def Obligations.RejectedCommandLeavesNoTrace : Prop :=
  ∀ (i : Instr) (s t : State), exec i s = .next t → rejected t.status →
    t = { s with status := t.status, fault := t.fault } ∧
    (t.fault = s.fault ∨ t.fault = true ∧ t.status = 4)

/-- R224: whether and how a command is rejected depends on the contents of neither memory. -/
def Obligations.RejectionDoesNotReadTheMemories : Prop :=
  ∀ (i : Instr) (s t : State) (m o : Memory), exec i s = .next t → rejected t.status →
    exec i { s with fb := m, opb := o } = .next { t with fb := m, opb := o }

/-- R31: `RESULT` changes only in a command that ends with OK and is GETPX, XLATE, PAGEOF or DSTR. -/
def Obligations.ResultIsWrittenOnSuccessOnly : Prop :=
  ∀ (i : Instr) (s t : State), exec i s = .next t → t.resets = s.resets → t.result ≠ s.result →
    t.status = 0 ∧
    ((∃ x y, i = .getpx x y) ∨ (∃ row, i = .xlate row) ∨ (∃ y, i = .pageof y) ∨
      (∃ x y len spacing font mode, i = .dstr x y len spacing font mode))

/-- The frame of every command that is not abandoned by a reset: the operand buffer, the parameters, the host's
moves and what it has read are unchanged, records are only added, and the transport's moves are only taken; and
the configuration and the flags change in INIT alone (R25 to R29, R34). -/
def Obligations.CommandsKeepConfigurationAndOperands : Prop :=
  ∀ (i : Instr) (s t : State), exec i s = .next t → t.resets = s.resets →
    t.opb = s.opb ∧ t.params = s.params ∧ t.host = s.host ∧ t.reads = s.reads ∧
    s.sends <+: t.sends ∧ t.transport <:+ s.transport ∧
    ((∀ w h v, i ≠ .init w h v) →
      t.cfgW = s.cfgW ∧ t.cfgH = s.cfgH ∧ t.cfgVariant = s.cfgVariant ∧
      t.configured = s.configured ∧ t.fault = s.fault)

/-- The frame on `FB`: which bytes a command can change, however its refresh goes. GETPX, XLATE and PAGEOF change
none; CLEAR none outside the allocated part; WRREG only the bytes `byte_start .. byte_end` of the region's rows,
and none for an empty rectangle; DCHAR the same for the glyph's rectangle; DSTR none left of its first glyph and
none outside the glyphs' rows (R33, R136, R160, R163). -/
def Obligations.FramebufferStoresStayInTheirBytes : Prop :=
  (∀ (i : Instr) (s t : State),
    (∃ x y, i = .getpx x y) ∨ (∃ row, i = .xlate row) ∨ (∃ y, i = .pageof y) →
    exec i s = .next t → t.fb = s.fb ∧ t.sends = s.sends) ∧
  (∀ (s t : State) (value : Bool), exec (.clear value) s = .next t → t.resets = s.resets →
    ∀ a, s.fbSize ≤ a → t.fbByte a = s.fbByte a ∧ fbRead t.fb a = fbRead s.fb a) ∧
  (∀ (s t : State) (x y width height : Nat), exec (.wrreg x y width height) s = .next t →
    t.resets = s.resets →
    (width = 0 ∨ height = 0 → t.fb = s.fb) ∧
    ∀ a, (∀ j r, x / 8 ≤ j → j ≤ (x + width - 1) / 8 → y ≤ r → r < y + height →
      a ≠ fbIndex s.bpr j r) → t.fbByte a = s.fbByte a) ∧
  (∀ (s t : State) (x y c font : Nat) (mode : Mode) (f : Font),
    fontOf s.params.fonts font = some f → exec (.dchar x y c font mode) s = .next t →
    t.resets = s.resets →
    ∀ a, (∀ j r, x / 8 ≤ j → j ≤ (x + f.fw - 1) / 8 → y ≤ r → r < y + f.fh →
      a ≠ fbIndex s.bpr j r) → t.fbByte a = s.fbByte a) ∧
  (∀ (s t : State) (x y len spacing font : Nat) (mode : Mode) (f : Font),
    fontOf s.params.fonts font = some f → exec (.dstr x y len spacing font mode) s = .next t →
    t.resets = s.resets →
    ∀ a, (∀ j r, x / 8 ≤ j → j < s.bpr → y ≤ r → r < y + f.fh → a ≠ fbIndex s.bpr j r) →
      t.fbByte a = s.fbByte a)

/-- R202, R203, R204: every record a command emits is a data record with a row's physical address and the bytes of
that row, all of them, in the raster that the refresh step reads: what the command leaves when every record is
acknowledged, and for DSTR what its first characters leave. This holds of a command that fails or is abandoned too. If
it is not abandoned and is no DSTR, that raster is the one it has left. INIT, GETPX, XLATE and PAGEOF emit none. -/
def Obligations.RecordsAreWholeRows : Prop :=
  (∀ (i : Instr) (s t : State), exec i s = .next t →
    ∃ new, t.sends = s.sends ++ new ∧ ∀ r ∈ new,
      ∃ v row, refreshedAs i s v ∧ row < s.height ∧
        r.isCommand = false ∧ r.addr = toPhysical s.cfgVariant s.height row ∧
        r.bytes = rowBytes v row ∧ r.bytes.length = s.bpr) ∧
  (∀ (i : Instr) (s t : State), (∀ x y len spacing font mode, i ≠ .dstr x y len spacing font mode) →
    exec i s = .next t → t.resets = s.resets →
    ∃ new, t.sends = s.sends ++ new ∧ ∀ r ∈ new,
      ∃ row, row < s.height ∧ r.addr = toPhysical s.cfgVariant s.height row ∧ r.bytes = rowBytes t row) ∧
  (∀ (i : Instr) (s t : State),
    (∃ w h v, i = .init w h v) ∨ (∃ x y, i = .getpx x y) ∨ (∃ row, i = .xlate row) ∨
      (∃ y, i = .pageof y) →
    exec i s = .next t → t.sends = s.sends)

/-- R262, R258: every command ends, provided the transport answers each record and the platform's fonts meet R151;
a command stops only at a record that is never answered, and CLEAR shows that it then does. That the hang is a fault
of the model is its choice (log 8). -/
def Obligations.EveryCommandEndsIfAnswered : Prop :=
  (∀ (i : Instr) (s : State), TransportEvent.never ∉ s.transport → platformFontsWf s.params →
    ∃ t, exec i s = .next t) ∧
  (∀ (i : Instr) (s : State) (e : Fault), exec i s = .fault e → TransportEvent.never ∈ s.transport) ∧
  (∀ (s : State) (value : Bool) (k : Nat) (rest : List TransportEvent),
    s.configured = true → k < s.height → s.AcknowledgedThen k .never rest →
    exec (.clear value) s = .fault .transportNeverAnswers)

/-- U4 and log 6: a font that breaks R151 is outside the model, and the two commands that would draw with it are
refused by name; no other command is refused, nor any on a platform whose fonts meet R151. -/
def Obligations.OnlyAFontOutsideTheModelIsRefused : Prop :=
  (∀ (s : State) (x y c font : Nat) (mode : Mode) (f : Font),
    s.configured = true → fontOf s.params.fonts font = some f → fontWf f = false →
    exec (.dchar x y c font mode) s = .refused (.fontOutsideModel font)) ∧
  (∀ (s : State) (x y len spacing font : Nat) (mode : Mode) (f : Font),
    s.configured = true → fontOf s.params.fonts font = some f → fontWf f = false →
    len ≤ s.params.opbCapacity →
    exec (.dstr x y len spacing font mode) s = .refused (.fontOutsideModel font)) ∧
  (∀ (i : Instr) (s : State) (e : Refusal), exec i s = .refused e → ¬ platformFontsWf s.params)

/-- R25, R29: from INIT to reset no step changes the configuration; and no step at all changes the parameters. -/
def Obligations.ConfigurationIsImmutable : Prop :=
  (∀ s t : State, step s = .next t → t.params = s.params) ∧
  (∀ s t : State, step s = .next t → t.resets = s.resets → s.configured = true →
    t.configured = true ∧ t.cfgW = s.cfgW ∧ t.cfgH = s.cfgH ∧ t.cfgVariant = s.cfgVariant)

/-- The reset state meets the invariant. -/
def Obligations.ResetStateMeetsTheInvariant : Prop := State.reset.Inv

/-- R110 (a) to (c), R25, R26, R34, R220: every step keeps the invariant, from every state that has it. -/
def Obligations.StepKeepsTheInvariant : Prop :=
  ∀ s t : State, s.Inv → step s = .next t → t.Inv

/-- R110 (d): the pad bits of all rows stay equal to each other, whatever the step. -/
def Obligations.StepKeepsThePadBitsUniform : Prop :=
  ∀ s t : State, (∃ b, s.PadsAre b) → step s = .next t → ∃ b, t.PadsAre b

/-- R33, R110 (d): the pad bits are 0 after INIT, CLEAR's value after a CLEAR that was not rejected, and as before
after any other command. -/
def Obligations.PadBitsFollowTheLastClear : Prop :=
  (∀ (s t : State) (width height : Nat) (variant : Variant),
    (Instr.init width height variant).wf = true → s.configured = false →
    exec (.init width height variant) s = .next t → t.configured = true → t.PadsAre false) ∧
  (∀ (s t : State) (value : Bool), exec (.clear value) s = .next t → t.resets = s.resets →
    ¬ rejected t.status → t.PadsAre value) ∧
  (∀ (i : Instr) (s t : State) (b : Bool),
    (∀ w h v, i ≠ .init w h v) → (∀ v, i ≠ .clear v) →
    exec i s = .next t → t.resets = s.resets → s.PadsAre b → t.PadsAre b)

/-- R220: no command writes the reserved status code 3 or a code from 9 up. -/
def Obligations.StatusCodesAreTheWrittenOnes : Prop :=
  ∀ (i : Instr) (s t : State), exec i s = .next t → t.status.toNat ≤ 8 ∧ t.status ≠ 3
end

