-- ==== Sys2Proof/Laws/Bits.lean ====
section
/-! SUPPORT. The pixels of the bytes that the rules form: masks, shifts, packed bytes (R9, R10, R132). -/

namespace Sys2Proof.Machine

theorem pixelOf_and (a b : Byte) (p : Nat) : pixelOf (a &&& b) p = (pixelOf a p && pixelOf b p) := by
  simp [pixelOf]

theorem pixelOf_or (a b : Byte) (p : Nat) : pixelOf (a ||| b) p = (pixelOf a p || pixelOf b p) := by
  simp [pixelOf]

theorem pixelOf_not (a : Byte) {p : Nat} (hp : p < 8) : pixelOf (~~~a) p = !pixelOf a p := by
  simp [pixelOf, show 7 - p < 8 by omega]

theorem pixelOf_zero (p : Nat) : pixelOf 0 p = false := by simp [pixelOf]

theorem pixelOf_ff {p : Nat} (hp : p < 8) : pixelOf 0xFF p = true := by
  interval_cases p <;> rfl

/-- Pixel `p` of `b << n` is pixel `p + n` of `b`. -/
theorem pixelOf_shiftLeft (b : Byte) {p n : Nat} (hp : p < 8) :
    pixelOf (b <<< n) p = (decide (p + n < 8) && pixelOf b (p + n)) := by
  unfold pixelOf
  rw [BitVec.getLsbD_shiftLeft]
  by_cases h : p + n < 8
  · simp [show 7 - p < 8 by omega, show ¬ 7 - p < n by omega, h, show 7 - p - n = 7 - (p + n) by omega]
  · simp [h, show 7 - p < n by omega]

/-- Pixel `p` of `b >> n` is pixel `p - n` of `b`, and 0 left of it. -/
theorem pixelOf_shiftRight (b : Byte) {p n : Nat} (hp : p < 8) :
    pixelOf (b >>> n) p = (decide (n ≤ p) && pixelOf b (p - n)) := by
  unfold pixelOf
  rw [BitVec.getLsbD_ushiftRight]
  by_cases h : n ≤ p
  · simp [h, show n + (7 - p) = 7 - (p - n) by omega]
  · simp only [h, decide_false, Bool.false_and]
    exact BitVec.getLsbD_of_ge _ _ (by omega)

theorem pixelOf_lowMask {n p : Nat} (hp : p < 8) :
    pixelOf (lowMask n) p = decide (8 - n ≤ p) := by
  rw [lowMask, pixelOf_shiftRight _ hp]
  by_cases h : 8 - n ≤ p
  · rw [pixelOf_ff (by omega)]; simp [h]
  · simp [h]

theorem pixelOf_highMask {n p : Nat} (hn : n ≤ 8) (hp : p < 8) :
    pixelOf (highMask n) p = decide (p < n) := by
  rw [highMask, pixelOf_shiftLeft _ hp]
  by_cases h : p < n
  · rw [pixelOf_ff (by omega)]; simp [h, show p + (8 - n) < 8 by omega]
  · simp [h, show ¬ p + (8 - n) < 8 by omega]

/-- The pixels of a packed byte. -/
theorem pixelOf_packByte (g : Nat → Bool) {p : Nat} (hp : p < 8) : pixelOf (packByte g) p = g p := by
  have key : ∀ b0 b1 b2 b3 b4 b5 b6 b7 : Bool, ∀ p : Fin 8,
      pixelOf (BitVec.ofNat 8 (2 * (2 * (2 * (2 * (2 * (2 * (2 * (2 * 0 + b0.toNat) + b1.toNat) + b2.toNat)
        + b3.toNat) + b4.toNat) + b5.toNat) + b6.toNat) + b7.toNat)) p.1
        = [b0, b1, b2, b3, b4, b5, b6, b7].getD p.1 false := by decide +kernel
  have := key (g 0) (g 1) (g 2) (g 3) (g 4) (g 5) (g 6) (g 7) ⟨p, hp⟩
  rw [show packByte g = BitVec.ofNat 8 (2 * (2 * (2 * (2 * (2 * (2 * (2 * (2 * 0 + (g 0).toNat) + (g 1).toNat)
        + (g 2).toNat) + (g 3).toNat) + (g 4).toNat) + (g 5).toNat) + (g 6).toNat) + (g 7).toNat) from rfl, this]
  interval_cases p <;> rfl

/-- Two bytes with the same eight pixels are equal. -/
theorem byte_ext {a b : Byte} (h : ∀ p, p < 8 → pixelOf a p = pixelOf b p) : a = b := by
  refine BitVec.eq_of_getLsbD_eq fun i hi => ?_
  have := h (7 - i) (by omega)
  rwa [pixelOf, pixelOf, show 7 - (7 - i) = i by omega] at this

/-- `RegionMask`: of the columns of a byte that the region touches, the mask has exactly the region's (R132). -/
theorem pixelOf_regionMask {j x width p : Nat} (hw : 0 < width) (hlo : x / 8 ≤ j)
    (hhi : j ≤ (x + width - 1) / 8) (hp : p < 8) :
    pixelOf (regionMask j x width) p = decide (x ≤ 8 * j + p ∧ 8 * j + p < x + width) := by
  have left : pixelOf (if j = x / 8 then lowMask (8 - x % 8) else 0xFF) p = decide (x ≤ 8 * j + p) := by
    split
    · rw [pixelOf_lowMask hp]; congr 1; simp only [eq_iff_iff]; omega
    · rw [pixelOf_ff hp]; symm; simp only [decide_eq_true_eq]; omega
  have right : pixelOf (if j = (x + width - 1) / 8 ∧ (x + width) % 8 ≠ 0 then highMask ((x + width) % 8)
      else 0xFF) p = decide (8 * j + p < x + width) := by
    split
    · rw [pixelOf_highMask (by omega) hp]; congr 1; simp only [eq_iff_iff]; omega
    · rw [pixelOf_ff hp]; symm; simp only [decide_eq_true_eq]; omega
  rw [regionMask, pixelOf_and, left, right, Bool.decide_and]

/-- The shifted-in byte: at a column of the region it has the source's pixel (R133). -/
theorem pixelOf_shifted {source : Nat → Byte} {x width i k p : Nat} (hp : p < 8)
    (hlo : x ≤ 8 * (x / 8 + k) + p) (hhi : 8 * (x / 8 + k) + p < x + width) :
    pixelOf (((if 1 ≤ k then source (i * ceil8 width + k - 1) else 0) <<< (8 - x % 8)) |||
        ((if k < ceil8 width then source (i * ceil8 width + k) else 0) >>> (x % 8))) p
      = srcPix source width (8 * (x / 8 + k) + p - x) i := by
  rw [pixelOf_or, pixelOf_shiftLeft _ hp, pixelOf_shiftRight _ hp, srcPix]
  by_cases h : x % 8 ≤ p
  · rw [if_pos (show k < ceil8 width by unfold ceil8; omega)]
    simp only [show ¬ p + (8 - x % 8) < 8 by omega, h, decide_true, decide_false, Bool.false_and,
      Bool.false_or, Bool.true_and]
    rw [show (8 * (x / 8 + k) + p - x) / 8 = k by omega, show (8 * (x / 8 + k) + p - x) % 8 = p - x % 8 by omega]
  · rw [if_pos (show 1 ≤ k by omega)]
    simp only [show p + (8 - x % 8) < 8 by omega, h, decide_true, decide_false, Bool.false_and,
      Bool.or_false, Bool.true_and]
    rw [show (8 * (x / 8 + k) + p - x) / 8 = k - 1 by omega,
      show (8 * (x / 8 + k) + p - x) % 8 = p + (8 - x % 8) by omega,
      show i * ceil8 width + k - 1 = i * ceil8 width + (k - 1) by omega]

/-! The halves of `RESULT` (R31). -/

theorem append_halves (x y : BitVec 16) :
    (x ++ y).extractLsb' 0 16 = y ∧ (x ++ y).extractLsb' 16 16 = x := by
  constructor <;> apply BitVec.eq_of_getLsbD_eq <;> intro i hi <;>
    rw [BitVec.getLsbD_extractLsb', BitVec.getLsbD_append] <;> simp [hi]

@[simp] theorem resultA_packResult (b a : Nat) : resultA (packResult b a) = BitVec.ofNat 16 a :=
  (append_halves _ _).1

@[simp] theorem resultB_packResult (b a : Nat) : resultB (packResult b a) = BitVec.ofNat 16 b :=
  (append_halves _ _).2

end Sys2Proof.Machine
end

