-- ==== Sys2Proof/Laws/Memory.lean ====
section
/-! SUPPORT. The laws of a byte memory: what is read after a write or a fill, and that both keep the canonical
form. -/

namespace Sys2Proof.Machine

/-! Reads. They hold of any list, canonical or not. -/

theorem find_erase (m : Memory) (a b : Nat) :
    Memory.find (Memory.erase m a) b = if b = a then none else Memory.find m b := by
  induction m with
  | nil => simp [Memory.erase, Memory.find]
  | cons c rest ih =>
    simp only [Memory.erase, List.filter_cons] at ih ⊢
    by_cases hc : c.1 = a
    · simp only [hc, ne_eq, not_true_eq_false, decide_false, Bool.false_eq_true, if_false, ih]
      by_cases hb : b = a
      · simp [hb]
      · simp [hb, Memory.find, hc, Ne.symm hb]
    · simp only [ne_eq, hc, not_false_eq_true, decide_true, if_true, Memory.find, ih]
      by_cases hb : b = a
      · simp [hb, hc]
      · simp [hb]

theorem find_insert (m : Memory) (a : Nat) (v : Byte) (b : Nat) :
    Memory.find (Memory.insert m a v) b = if b = a then some v else Memory.find m b := by
  induction m with
  | nil => simp [Memory.insert, Memory.find, eq_comm]
  | cons c rest ih =>
    simp only [Memory.insert]
    split
    · simp [Memory.find, eq_comm]
    · split
      · rename_i h
        by_cases hb : b = a
        · simp [Memory.find, hb]
        · simp [Memory.find, hb, h, Ne.symm hb]
      · rename_i h
        by_cases hb : b = a
        · subst hb; simpa [Memory.find, h] using ih
        · simp [Memory.find, hb, ih]

theorem find_write (blank : Option Byte) (m : Memory) (a : Nat) (v : Byte) (b : Nat) :
    Memory.find (Memory.write blank m a v) b
      = if b = a then (if blank = some v then none else some v) else Memory.find m b := by
  unfold Memory.write
  split <;> simp [find_erase, find_insert]

theorem find_append (m m' : Memory) (a : Nat) :
    Memory.find (m ++ m') a = (Memory.find m a).or (Memory.find m' a) := by
  induction m with
  | nil => simp [Memory.find]
  | cons c rest ih =>
    simp only [List.cons_append, Memory.find, ih]
    split <;> simp

theorem find_run (v : Byte) (n a : Nat) (start : Nat) :
    Memory.find ((List.range' start n).map fun a => (a, v)) a
      = if start ≤ a ∧ a < start + n then some v else none := by
  induction n generalizing start with
  | zero => simp [Memory.find]
  | succ n ih =>
    simp only [List.range'_succ, List.map_cons, Memory.find, ih]
    by_cases h : start = a
    · simp [h]
    · have : (start + 1 ≤ a ∧ a < start + 1 + n) ↔ (start ≤ a ∧ a < start + (n + 1)) := by omega
      simp only [h, if_false, this]

theorem find_from (m : Memory) (n a : Nat) :
    Memory.find (m.filter fun c => n ≤ c.1) a = if n ≤ a then Memory.find m a else none := by
  induction m with
  | nil => simp [Memory.find]
  | cons c rest ih =>
    simp only [List.filter_cons]
    by_cases hc : n ≤ c.1
    · simp only [hc, decide_true, if_true, Memory.find, ih]
      by_cases h : c.1 = a
      · simp [h, h ▸ hc]
      · simp [h]
    · simp only [hc, decide_false, Bool.false_eq_true, if_false, ih, Memory.find]
      by_cases h : c.1 = a
      · simp [h ▸ hc]
      · simp [h]

theorem find_fill (blank : Option Byte) (m : Memory) (n : Nat) (v : Byte) (a : Nat) :
    Memory.find (Memory.fill blank m n v) a
      = if a < n then (if blank = some v then none else some v) else Memory.find m a := by
  unfold Memory.fill
  rw [find_append, find_from]
  by_cases ha : a < n
  · simp only [ha, if_true, Nat.not_le.mpr ha, if_false, Option.or_none]
    split
    · simp [Memory.find]
    · rw [List.range_eq_range', find_run]; simp [ha]
  · simp only [ha, if_false, Nat.not_lt.mp ha, if_true]
    split
    · simp [Memory.find]
    · rw [List.range_eq_range', find_run]; simp [ha]

/-- Reading an allocated `FB` after a write. -/
theorem fbRead_write (fb : Memory) (a : Nat) (v : Byte) (b : Nat) :
    fbRead (Memory.write Config.fbBlank fb a v) b = if b = a then v else fbRead fb b := by
  unfold fbRead
  rw [find_write]
  by_cases hb : b = a
  · simp only [hb, if_true, Config.fbBlank, Option.some.injEq]
    split
    · rename_i h; simp [← h]
    · simp
  · simp [hb]

/-- Reading an allocated `FB` after a fill. -/
theorem fbRead_fill (fb : Memory) (n : Nat) (v : Byte) (b : Nat) :
    fbRead (Memory.fill Config.fbBlank fb n v) b = if b < n then v else fbRead fb b := by
  unfold fbRead
  rw [find_fill]
  by_cases hb : b < n
  · simp only [hb, if_true, Config.fbBlank, Option.some.injEq]
    split
    · rename_i h; simp [← h]
    · simp
  · simp [hb]

/-! The canonical form. -/

theorem mem_insert {m : Memory} {a : Nat} {v : Byte} {c : Host.Cell} (h : c ∈ Memory.insert m a v) :
    c = (a, v) ∨ c ∈ m := by
  induction m with
  | nil => simpa [Memory.insert] using h
  | cons d rest ih =>
    simp only [Memory.insert] at h
    split at h
    · simpa using h
    · split at h
      · rcases List.mem_cons.mp h with h | h
        · exact .inl h
        · exact .inr (List.mem_cons_of_mem _ h)
      · rcases List.mem_cons.mp h with h | h
        · exact .inr (h ▸ List.mem_cons_self)
        · exact (ih h).imp id (List.mem_cons_of_mem _)

theorem insert_sorted {m : Memory} {a : Nat} {v : Byte} (h : m.Pairwise fun c d => c.1 < d.1) :
    (Memory.insert m a v).Pairwise fun c d => c.1 < d.1 := by
  induction m with
  | nil => simp [Memory.insert]
  | cons d rest ih =>
    rw [List.pairwise_cons] at h
    simp only [Memory.insert]
    split
    · rename_i hlt
      refine List.pairwise_cons.mpr ⟨fun c hc => ?_, List.pairwise_cons.mpr h⟩
      rcases List.mem_cons.mp hc with rfl | hc
      · exact hlt
      · exact hlt.trans (h.1 c hc)
    · split
      · rename_i heq
        exact List.pairwise_cons.mpr ⟨fun c hc => heq ▸ h.1 c hc, h.2⟩
      · rename_i hnlt hne
        refine List.pairwise_cons.mpr ⟨fun c hc => ?_, ih h.2⟩
        rcases mem_insert hc with rfl | hc
        · simp only; omega
        · exact h.1 c hc

/-- A write keeps the canonical form. -/
theorem write_wf {blank : Option Byte} {m : Memory} (a : Nat) (v : Byte) (h : Memory.wf blank m) :
    Memory.wf blank (Memory.write blank m a v) := by
  unfold Memory.write
  split
  · exact ⟨h.1.filter _, fun c hc => h.2 c (List.mem_of_mem_filter hc)⟩
  · rename_i hv
    refine ⟨insert_sorted h.1, fun c hc => ?_⟩
    rcases mem_insert hc with rfl | hc
    · exact hv
    · exact h.2 c hc

/-- A write below `n` keeps every entry below `n`. -/
theorem write_below {blank : Option Byte} {m : Memory} {n a : Nat} {v : Byte} (h : Memory.below n m)
    (ha : a < n) : Memory.below n (Memory.write blank m a v) := by
  unfold Memory.write
  split
  · exact fun c hc => h c (List.mem_of_mem_filter hc)
  · intro c hc
    rcases mem_insert hc with rfl | hc
    · exact ha
    · exact h c hc

theorem run_sorted (v : Byte) (n start : Nat) :
    ((List.range' start n).map fun a => ((a, v) : Host.Cell)).Pairwise fun c d => c.1 < d.1 := by
  rw [List.pairwise_map]
  exact List.pairwise_lt_range'

/-- A fill keeps the canonical form. -/
theorem fill_wf {blank : Option Byte} {m : Memory} (n : Nat) (v : Byte) (h : Memory.wf blank m) :
    Memory.wf blank (Memory.fill blank m n v) := by
  unfold Memory.fill
  split
  · rw [List.nil_append]
    exact ⟨h.1.filter _, fun c hc => h.2 c (List.mem_of_mem_filter hc)⟩
  · rename_i hv
    refine ⟨List.pairwise_append.mpr ⟨?_, h.1.filter _, fun c hc d hd => ?_⟩, fun c hc => ?_⟩
    · rw [List.range_eq_range']; exact run_sorted v n 0
    · obtain ⟨a, ha, rfl⟩ := List.mem_map.mp hc
      have := (List.mem_filter.mp hd).2
      simp only [List.mem_range, decide_eq_true_eq] at ha this ⊢
      omega
    · rcases List.mem_append.mp hc with hc | hc
      · obtain ⟨a, _, rfl⟩ := List.mem_map.mp hc
        exact hv
      · exact h.2 c (List.mem_of_mem_filter hc)

/-- A fill of `n` bytes leaves every entry below `n` if the entries were below `n`. -/
theorem fill_below {blank : Option Byte} {m : Memory} {n : Nat} {v : Byte} (h : Memory.below n m) :
    Memory.below n (Memory.fill blank m n v) := by
  intro c hc
  unfold Memory.fill at hc
  rcases List.mem_append.mp hc with hc | hc
  · split at hc
    · simp at hc
    · obtain ⟨a, ha, rfl⟩ := List.mem_map.mp hc
      simpa using ha
  · exact h c (List.mem_of_mem_filter hc)

theorem find_none_of_lt {m : Memory} {a : Nat} (h : ∀ c ∈ m, a < c.1) : Memory.find m a = none := by
  induction m with
  | nil => rfl
  | cons c rest ih =>
    have hc := h c List.mem_cons_self
    rw [Memory.find, if_neg (by omega), ih fun d hd => h d (List.mem_cons_of_mem _ hd)]

/-- Two sorted memories that list the same bytes are the same list. -/
theorem sorted_ext {m m' : Memory} (h : m.Pairwise fun c d => c.1 < d.1)
    (h' : m'.Pairwise fun c d => c.1 < d.1) (e : ∀ a, Memory.find m a = Memory.find m' a) : m = m' := by
  induction m generalizing m' with
  | nil =>
    cases m' with
    | nil => rfl
    | cons d rest' => simpa [Memory.find] using e d.1
  | cons c rest ih =>
    cases m' with
    | nil => simpa [Memory.find] using e c.1
    | cons d rest' =>
      rw [List.pairwise_cons] at h h'
      have none_below : ∀ a, a < c.1 → Memory.find (c :: rest) a = none := fun a ha =>
        find_none_of_lt fun x hx => (List.mem_cons.mp hx).elim (fun hx => hx ▸ ha) fun hx => ha.trans (h.1 x hx)
      have none_below' : ∀ a, a < d.1 → Memory.find (d :: rest') a = none := fun a ha =>
        find_none_of_lt fun x hx => (List.mem_cons.mp hx).elim (fun hx => hx ▸ ha) fun hx => ha.trans (h'.1 x hx)
      have hc : Memory.find (c :: rest) c.1 = some c.2 := by simp [Memory.find]
      have hd : Memory.find (d :: rest') d.1 = some d.2 := by simp [Memory.find]
      have heq : c.1 = d.1 := by
        rcases Nat.lt_trichotomy c.1 d.1 with hlt | heq | hlt
        · rw [e, none_below' _ hlt] at hc; simp at hc
        · exact heq
        · rw [← e, none_below _ hlt] at hd; simp at hd
      have hcd : c = d := by
        have := e c.1
        rw [hc, heq, hd] at this
        exact Prod.ext heq (Option.some.inj this)
      subst hcd
      refine congrArg _ (ih h.2 h'.2 fun a => ?_)
      by_cases ha : a ≤ c.1
      · rw [find_none_of_lt fun x hx => lt_of_le_of_lt ha (h.1 x hx),
          find_none_of_lt fun x hx => lt_of_le_of_lt ha (h'.1 x hx)]
      · simpa [Memory.find, show ¬ c.1 = a by omega] using e a

/-- A listed byte of a canonical memory is not the one an unlisted address reads as. -/
theorem find_ne_blank {blank : Option Byte} {m : Memory} (h : Memory.wf blank m) {a : Nat} {v : Byte}
    (e : Memory.find m a = some v) : blank ≠ some v := by
  obtain ⟨-, hm⟩ := h
  induction m with
  | nil => simp [Memory.find] at e
  | cons c rest ih =>
    rw [Memory.find] at e
    split at e
    · exact Option.some.inj e ▸ hm c List.mem_cons_self
    · exact ih e fun d hd => hm d (List.mem_cons_of_mem _ hd)

/-- Two canonical framebuffers that read the same everywhere are the same list. -/
theorem fb_ext {m m' : Memory} (h : Memory.wf Config.fbBlank m) (h' : Memory.wf Config.fbBlank m')
    (e : ∀ a, fbRead m a = fbRead m' a) : m = m' := by
  refine sorted_ext h.1 h'.1 fun a => ?_
  have ea := e a
  unfold fbRead at ea
  cases hm : Memory.find m a with
  | none =>
    cases hm' : Memory.find m' a with
    | none => rfl
    | some v =>
      have := find_ne_blank h' hm'
      simp [hm, hm', Config.fbBlank] at ea this
      exact absurd ea this
  | some v =>
    cases hm' : Memory.find m' a with
    | none =>
      have := find_ne_blank h hm
      simp [hm, hm', Config.fbBlank] at ea this
      exact absurd ea.symm this
    | some v' => simpa [hm, hm'] using ea

/-- A byte that no entry of a memory can be at reads as unlisted. -/
theorem find_of_below {m : Memory} {n a : Nat} (h : Memory.below n m) (ha : n ≤ a) :
    Memory.find m a = none := by
  induction m with
  | nil => rfl
  | cons c rest ih =>
    have hc := h c List.mem_cons_self
    rw [Memory.find, if_neg (by omega), ih fun d hd => h d (List.mem_cons_of_mem _ hd)]

end Sys2Proof.Machine
end

