-- ==== Sys2Proof/Laws/Merge.lean ====
section
/-! SUPPORT. What the region merge does to `FB`: which bytes it writes, with what (R132), and that it keeps the
canonical form. -/

namespace Sys2Proof.Machine

/-- The byte that `mergeByte` writes over `old`. -/
def mergedByte (x width : Nat) (source : Nat → Byte) (i k : Nat) (old : Byte) : Byte :=
  (old &&& ~~~(regionMask (x / 8 + k) x width)) |||
    ((((if 1 ≤ k then source (i * ceil8 width + k - 1) else 0) <<< (8 - x % 8)) |||
        ((if k < ceil8 width then source (i * ceil8 width + k) else 0) >>> (x % 8))) &&&
      regionMask (x / 8 + k) x width)

theorem fbRead_mergeByte (bpr x y width : Nat) (source : Nat → Byte) (i k : Nat) (fb : Memory) (a : Nat) :
    fbRead (mergeByte bpr x y width source i k fb) a
      = if a = fbIndex bpr (x / 8 + k) (y + i)
        then mergedByte x width source i k (fbRead fb a) else fbRead fb a := by
  unfold mergeByte
  rw [fbRead_write]
  split
  · rename_i h; rw [h]; rfl
  · rfl

/-- One row of the merge: the bytes `byte_start .. byte_end`, each from what it held before the row. -/
theorem fbRead_mergeRow_aux (bpr x y width : Nat) (source : Nat → Byte) (i n : Nat) (fb : Memory) (a : Nat) :
    fbRead ((List.range n).foldl (fun fb k => mergeByte bpr x y width source i k fb) fb) a
      = if fbIndex bpr (x / 8) (y + i) ≤ a ∧ a < fbIndex bpr (x / 8) (y + i) + n
        then mergedByte x width source i (a - fbIndex bpr (x / 8) (y + i)) (fbRead fb a)
        else fbRead fb a := by
  induction n with
  | zero =>
    rw [if_neg (by omega)]
    rfl
  | succ n ih =>
    rw [List.range_succ, List.foldl_append, List.foldl_cons, List.foldl_nil, fbRead_mergeByte, ih]
    have hidx : fbIndex bpr (x / 8 + n) (y + i) = fbIndex bpr (x / 8) (y + i) + n := by
      simp [fbIndex, Nat.add_assoc]
    rw [hidx]
    by_cases h : a = fbIndex bpr (x / 8) (y + i) + n
    · rw [if_pos h, if_neg (by omega), if_pos (by omega), show a - fbIndex bpr (x / 8) (y + i) = n by omega]
    · rw [if_neg h]
      by_cases h' : fbIndex bpr (x / 8) (y + i) ≤ a ∧ a < fbIndex bpr (x / 8) (y + i) + n
      · rw [if_pos h', if_pos (by omega)]
      · rw [if_neg h', if_neg (by omega)]

/-- What a byte of `FB` is after a merge that stays inside the rows: byte `j` of row `r`. -/
theorem fbRead_mergeRegion {bpr x y width height : Nat} {source : Nat → Byte} {fb : Memory}
    (hw : 0 < width) (hfit : (x + width - 1) / 8 < bpr) {j r : Nat} (hj : j < bpr) :
    fbRead (mergeRegion bpr x y width height source fb) (fbIndex bpr j r)
      = if x / 8 ≤ j ∧ j ≤ (x + width - 1) / 8 ∧ y ≤ r ∧ r < y + height
        then mergedByte x width source (r - y) (j - x / 8) (fbRead fb (fbIndex bpr j r))
        else fbRead fb (fbIndex bpr j r) := by
  have rows : ∀ n, fbRead ((List.range n).foldl (fun fb i => mergeRow bpr x y width source i fb) fb)
      (fbIndex bpr j r) = if x / 8 ≤ j ∧ j ≤ (x + width - 1) / 8 ∧ y ≤ r ∧ r < y + n
        then mergedByte x width source (r - y) (j - x / 8) (fbRead fb (fbIndex bpr j r))
        else fbRead fb (fbIndex bpr j r) := by
    intro n
    induction n with
    | zero => rw [if_neg (by omega)]; rfl
    | succ n ih =>
      rw [List.range_succ, List.foldl_append, List.foldl_cons, List.foldl_nil, mergeRow,
        fbRead_mergeRow_aux, ih]
      have hsame : (fbIndex bpr (x / 8) (y + n) ≤ fbIndex bpr j r ∧
          fbIndex bpr j r < fbIndex bpr (x / 8) (y + n) + ((x + width - 1) / 8 - x / 8 + 1)) ↔
          (r = y + n ∧ x / 8 ≤ j ∧ j ≤ (x + width - 1) / 8) := by
        have hle : x / 8 ≤ (x + width - 1) / 8 := Nat.div_le_div_right (by omega)
        simp only [fbIndex]
        constructor
        · rintro ⟨h1, h2⟩
          have hr : r = y + n := by
            rcases Nat.lt_trichotomy r (y + n) with hlt | heq | hlt
            · have : (r + 1) * bpr ≤ (y + n) * bpr := Nat.mul_le_mul_right _ hlt
              rw [Nat.add_mul] at this; omega
            · exact heq
            · have : (y + n + 1) * bpr ≤ r * bpr := Nat.mul_le_mul_right _ hlt
              rw [Nat.add_mul (y + n)] at this; omega
          subst hr; omega
        · rintro ⟨rfl, h1, h2⟩; omega
      by_cases h : r = y + n ∧ x / 8 ≤ j ∧ j ≤ (x + width - 1) / 8
      · rw [if_pos (hsame.mpr h), if_neg (by omega), if_pos (by omega)]
        obtain ⟨rfl, h1, h2⟩ := h
        rw [show y + n - y = n by omega,
          show fbIndex bpr j (y + n) - fbIndex bpr (x / 8) (y + n) = j - x / 8 by simp only [fbIndex]; omega]
      · rw [if_neg (hsame.not.mpr h)]
        by_cases h' : x / 8 ≤ j ∧ j ≤ (x + width - 1) / 8 ∧ y ≤ r ∧ r < y + n
        · rw [if_pos h', if_pos (by omega)]
        · rw [if_neg h', if_neg (by omega)]
  unfold mergeRegion
  by_cases hh : width = 0 ∨ height = 0
  · rw [if_pos hh, if_neg (by omega)]
  · rw [if_neg hh, rows]

/-- The pixel-level meaning of the merge (R131): pixel `p` of byte `j` of row `r`, pad pixels included. -/
theorem pixel_mergeRegion {bpr x y width height : Nat} {source : Nat → Byte} {fb : Memory}
    (hw : 0 < width) (hfit : (x + width - 1) / 8 < bpr) {j r p : Nat} (hj : j < bpr) (hp : p < 8) :
    pixelOf (fbRead (mergeRegion bpr x y width height source fb) (fbIndex bpr j r)) p
      = if x ≤ 8 * j + p ∧ 8 * j + p < x + width ∧ y ≤ r ∧ r < y + height
        then srcPix source width (8 * j + p - x) (r - y) else pixelOf (fbRead fb (fbIndex bpr j r)) p := by
  rw [fbRead_mergeRegion hw hfit hj]
  by_cases hrow : x / 8 ≤ j ∧ j ≤ (x + width - 1) / 8 ∧ y ≤ r ∧ r < y + height
  · rw [if_pos hrow, mergedByte, show x / 8 + (j - x / 8) = j by omega, pixelOf_or, pixelOf_and, pixelOf_and,
      pixelOf_not _ hp, pixelOf_regionMask hw hrow.1 hrow.2.1 hp]
    by_cases hin : x ≤ 8 * j + p ∧ 8 * j + p < x + width
    · have hs := pixelOf_shifted (source := source) (x := x) (width := width) (i := r - y) (k := j - x / 8) hp
        (by omega) (by omega)
      rw [show 8 * (x / 8 + (j - x / 8)) + p - x = 8 * j + p - x by omega] at hs
      rw [hs, if_pos ⟨hin.1, hin.2, hrow.2.2⟩]
      simp [hin]
    · rw [if_neg (show ¬ (x ≤ 8 * j + p ∧ 8 * j + p < x + width ∧ y ≤ r ∧ r < y + height) by tauto)]
      simp [hin]
  · rw [if_neg hrow, if_neg (by omega)]

theorem mergeByte_wf {bpr x y width i k : Nat} {source : Nat → Byte} {fb : Memory}
    (h : Memory.wf Config.fbBlank fb) :
    Memory.wf Config.fbBlank (mergeByte bpr x y width source i k fb) := write_wf _ _ h

/-- The merge keeps the canonical form. -/
theorem mergeRegion_wf {bpr x y width height : Nat} {source : Nat → Byte} {fb : Memory}
    (h : Memory.wf Config.fbBlank fb) :
    Memory.wf Config.fbBlank (mergeRegion bpr x y width height source fb) := by
  have row : ∀ i n (fb : Memory), Memory.wf Config.fbBlank fb →
      Memory.wf Config.fbBlank
        ((List.range n).foldl (fun fb k => mergeByte bpr x y width source i k fb) fb) := by
    intro i n fb h
    induction n with
    | zero => exact h
    | succ n ih => rw [List.range_succ, List.foldl_append]; exact mergeByte_wf ih
  unfold mergeRegion
  split
  · exact h
  · generalize height = n
    induction n with
    | zero => exact h
    | succ n ih => rw [List.range_succ, List.foldl_append]; exact row _ _ _ ih

/-- The merge of a rectangle inside the raster writes inside the allocated part only (R110 (c)). -/
theorem mergeRegion_below {bpr x y width height rows : Nat} {source : Nat → Byte} {fb : Memory}
    (hfit : (x + width - 1) / 8 < bpr) (hrows : y + height ≤ rows)
    (h : Memory.below (rows * bpr) fb) :
    Memory.below (rows * bpr) (mergeRegion bpr x y width height source fb) := by
  unfold mergeRegion
  split
  · exact h
  · rename_i hne
    have hle : x / 8 ≤ (x + width - 1) / 8 := Nat.div_le_div_right (by omega)
    have row : ∀ i, i < height → ∀ n, n ≤ (x + width - 1) / 8 - x / 8 + 1 → ∀ fb : Memory,
        Memory.below (rows * bpr) fb → Memory.below (rows * bpr)
          ((List.range n).foldl (fun fb k => mergeByte bpr x y width source i k fb) fb) := by
      intro i hi n hn fb h
      induction n with
      | zero => exact h
      | succ n ih =>
        rw [List.range_succ, List.foldl_append]
        refine write_below (ih (by omega)) ?_
        have : (y + i + 1) * bpr ≤ rows * bpr := Nat.mul_le_mul_right _ (by omega)
        rw [Nat.add_mul (y + i)] at this
        simp only [fbIndex]
        omega
    have all : ∀ n, n ≤ height → Memory.below (rows * bpr)
        ((List.range n).foldl (fun fb i => mergeRow bpr x y width source i fb) fb) := by
      intro n hn
      induction n with
      | zero => exact h
      | succ n ih =>
        rw [List.range_succ, List.foldl_append]
        exact row n (by omega) _ le_rfl _ (ih (by omega))
    exact all height le_rfl

end Sys2Proof.Machine
end

