-- ==== Sys2Proof/Laws/State.lean ====
section
/-! SUPPORT. What each named write of the state changes and leaves: one lemma per field and per quantity read off
the fields, all true by `rfl`. -/

namespace Sys2Proof.Machine

variable (s : State)

/-! `withStatus`. -/

@[simp] theorem withStatus_cfgW (e : Status) : (s.withStatus e).cfgW = s.cfgW := rfl
@[simp] theorem withStatus_cfgH (e : Status) : (s.withStatus e).cfgH = s.cfgH := rfl
@[simp] theorem withStatus_cfgVariant (e : Status) : (s.withStatus e).cfgVariant = s.cfgVariant := rfl
@[simp] theorem withStatus_configured (e : Status) : (s.withStatus e).configured = s.configured := rfl
@[simp] theorem withStatus_fault (e : Status) : (s.withStatus e).fault = s.fault := rfl
@[simp] theorem withStatus_status (e : Status) : (s.withStatus e).status = statusCode e := rfl
@[simp] theorem withStatus_result (e : Status) : (s.withStatus e).result = s.result := rfl
@[simp] theorem withStatus_fb (e : Status) : (s.withStatus e).fb = s.fb := rfl
@[simp] theorem withStatus_opb (e : Status) : (s.withStatus e).opb = s.opb := rfl
@[simp] theorem withStatus_params (e : Status) : (s.withStatus e).params = s.params := rfl
@[simp] theorem withStatus_host (e : Status) : (s.withStatus e).host = s.host := rfl
@[simp] theorem withStatus_transport (e : Status) : (s.withStatus e).transport = s.transport := rfl
@[simp] theorem withStatus_ackDraws (e : Status) : (s.withStatus e).ackDraws = s.ackDraws := rfl
@[simp] theorem withStatus_resets (e : Status) : (s.withStatus e).resets = s.resets := rfl
@[simp] theorem withStatus_sends (e : Status) : (s.withStatus e).sends = s.sends := rfl
@[simp] theorem withStatus_reads (e : Status) : (s.withStatus e).reads = s.reads := rfl
@[simp] theorem withStatus_width (e : Status) : (s.withStatus e).width = s.width := rfl
@[simp] theorem withStatus_height (e : Status) : (s.withStatus e).height = s.height := rfl
@[simp] theorem withStatus_bpr (e : Status) : (s.withStatus e).bpr = s.bpr := rfl
@[simp] theorem withStatus_fbSize (e : Status) : (s.withStatus e).fbSize = s.fbSize := rfl
@[simp] theorem withStatus_fbByte (e : Status) (a' : Nat) : (s.withStatus e).fbByte a' = s.fbByte a' := rfl
@[simp] theorem withStatus_pix (e : Status) (x y : Nat) : (s.withStatus e).pix x y = s.pix x y := rfl
@[simp] theorem withStatus_rowRecord (e : Status) (y : Nat) : rowRecord (s.withStatus e) y = rowRecord s y := rfl
@[simp] theorem withStatus_opbByte (e : Status) (a' : Nat) : (s.withStatus e).opbByte a' = s.opbByte a' := rfl

/-! `withResult`. -/

@[simp] theorem withResult_cfgW (b a : Nat) : (s.withResult b a).cfgW = s.cfgW := rfl
@[simp] theorem withResult_cfgH (b a : Nat) : (s.withResult b a).cfgH = s.cfgH := rfl
@[simp] theorem withResult_cfgVariant (b a : Nat) : (s.withResult b a).cfgVariant = s.cfgVariant := rfl
@[simp] theorem withResult_configured (b a : Nat) : (s.withResult b a).configured = s.configured := rfl
@[simp] theorem withResult_fault (b a : Nat) : (s.withResult b a).fault = s.fault := rfl
@[simp] theorem withResult_status (b a : Nat) : (s.withResult b a).status = s.status := rfl
@[simp] theorem withResult_result (b a : Nat) : (s.withResult b a).result = packResult b a := rfl
@[simp] theorem withResult_fb (b a : Nat) : (s.withResult b a).fb = s.fb := rfl
@[simp] theorem withResult_opb (b a : Nat) : (s.withResult b a).opb = s.opb := rfl
@[simp] theorem withResult_params (b a : Nat) : (s.withResult b a).params = s.params := rfl
@[simp] theorem withResult_host (b a : Nat) : (s.withResult b a).host = s.host := rfl
@[simp] theorem withResult_transport (b a : Nat) : (s.withResult b a).transport = s.transport := rfl
@[simp] theorem withResult_ackDraws (b a : Nat) : (s.withResult b a).ackDraws = s.ackDraws := rfl
@[simp] theorem withResult_resets (b a : Nat) : (s.withResult b a).resets = s.resets := rfl
@[simp] theorem withResult_sends (b a : Nat) : (s.withResult b a).sends = s.sends := rfl
@[simp] theorem withResult_reads (b a : Nat) : (s.withResult b a).reads = s.reads := rfl
@[simp] theorem withResult_width (b a : Nat) : (s.withResult b a).width = s.width := rfl
@[simp] theorem withResult_height (b a : Nat) : (s.withResult b a).height = s.height := rfl
@[simp] theorem withResult_bpr (b a : Nat) : (s.withResult b a).bpr = s.bpr := rfl
@[simp] theorem withResult_fbSize (b a : Nat) : (s.withResult b a).fbSize = s.fbSize := rfl
@[simp] theorem withResult_fbByte (b a : Nat) (a' : Nat) : (s.withResult b a).fbByte a' = s.fbByte a' := rfl
@[simp] theorem withResult_pix (b a : Nat) (x y : Nat) : (s.withResult b a).pix x y = s.pix x y := rfl
@[simp] theorem withResult_rowRecord (b a : Nat) (y : Nat) : rowRecord (s.withResult b a) y = rowRecord s y := rfl
@[simp] theorem withResult_opbByte (b a : Nat) (a' : Nat) : (s.withResult b a).opbByte a' = s.opbByte a' := rfl

/-! `withFault`. -/

@[simp] theorem withFault_cfgW : (s.withFault).cfgW = s.cfgW := rfl
@[simp] theorem withFault_cfgH : (s.withFault).cfgH = s.cfgH := rfl
@[simp] theorem withFault_cfgVariant : (s.withFault).cfgVariant = s.cfgVariant := rfl
@[simp] theorem withFault_configured : (s.withFault).configured = s.configured := rfl
@[simp] theorem withFault_fault : (s.withFault).fault = true := rfl
@[simp] theorem withFault_status : (s.withFault).status = s.status := rfl
@[simp] theorem withFault_result : (s.withFault).result = s.result := rfl
@[simp] theorem withFault_fb : (s.withFault).fb = s.fb := rfl
@[simp] theorem withFault_opb : (s.withFault).opb = s.opb := rfl
@[simp] theorem withFault_params : (s.withFault).params = s.params := rfl
@[simp] theorem withFault_host : (s.withFault).host = s.host := rfl
@[simp] theorem withFault_transport : (s.withFault).transport = s.transport := rfl
@[simp] theorem withFault_ackDraws : (s.withFault).ackDraws = s.ackDraws := rfl
@[simp] theorem withFault_resets : (s.withFault).resets = s.resets := rfl
@[simp] theorem withFault_sends : (s.withFault).sends = s.sends := rfl
@[simp] theorem withFault_reads : (s.withFault).reads = s.reads := rfl
@[simp] theorem withFault_width : (s.withFault).width = s.width := rfl
@[simp] theorem withFault_height : (s.withFault).height = s.height := rfl
@[simp] theorem withFault_bpr : (s.withFault).bpr = s.bpr := rfl
@[simp] theorem withFault_fbSize : (s.withFault).fbSize = s.fbSize := rfl
@[simp] theorem withFault_fbByte (a' : Nat) : (s.withFault).fbByte a' = s.fbByte a' := rfl
@[simp] theorem withFault_pix (x y : Nat) : (s.withFault).pix x y = s.pix x y := rfl
@[simp] theorem withFault_rowRecord (y : Nat) : rowRecord (s.withFault) y = rowRecord s y := rfl
@[simp] theorem withFault_opbByte (a' : Nat) : (s.withFault).opbByte a' = s.opbByte a' := rfl

/-! `withConfig`. -/

@[simp] theorem withConfig_cfgW (w h : Nat) (v : Variant) : (s.withConfig w h v).cfgW = BitVec.ofNat 12 w := rfl
@[simp] theorem withConfig_cfgH (w h : Nat) (v : Variant) : (s.withConfig w h v).cfgH = BitVec.ofNat 12 h := rfl
@[simp] theorem withConfig_cfgVariant (w h : Nat) (v : Variant) : (s.withConfig w h v).cfgVariant = v := rfl
@[simp] theorem withConfig_configured (w h : Nat) (v : Variant) : (s.withConfig w h v).configured = true := rfl
@[simp] theorem withConfig_fault (w h : Nat) (v : Variant) : (s.withConfig w h v).fault = s.fault := rfl
@[simp] theorem withConfig_status (w h : Nat) (v : Variant) : (s.withConfig w h v).status = s.status := rfl
@[simp] theorem withConfig_result (w h : Nat) (v : Variant) : (s.withConfig w h v).result = s.result := rfl
@[simp] theorem withConfig_fb (w h : Nat) (v : Variant) : (s.withConfig w h v).fb = s.fb := rfl
@[simp] theorem withConfig_opb (w h : Nat) (v : Variant) : (s.withConfig w h v).opb = s.opb := rfl
@[simp] theorem withConfig_params (w h : Nat) (v : Variant) : (s.withConfig w h v).params = s.params := rfl
@[simp] theorem withConfig_host (w h : Nat) (v : Variant) : (s.withConfig w h v).host = s.host := rfl
@[simp] theorem withConfig_transport (w h : Nat) (v : Variant) : (s.withConfig w h v).transport = s.transport := rfl
@[simp] theorem withConfig_ackDraws (w h : Nat) (v : Variant) : (s.withConfig w h v).ackDraws = s.ackDraws := rfl
@[simp] theorem withConfig_resets (w h : Nat) (v : Variant) : (s.withConfig w h v).resets = s.resets := rfl
@[simp] theorem withConfig_sends (w h : Nat) (v : Variant) : (s.withConfig w h v).sends = s.sends := rfl
@[simp] theorem withConfig_reads (w h : Nat) (v : Variant) : (s.withConfig w h v).reads = s.reads := rfl
@[simp] theorem withConfig_opbByte (w h : Nat) (v : Variant) (a' : Nat) : (s.withConfig w h v).opbByte a' = s.opbByte a' := rfl

/-! `withFb`. -/

@[simp] theorem withFb_cfgW (m : Memory) : (s.withFb m).cfgW = s.cfgW := rfl
@[simp] theorem withFb_cfgH (m : Memory) : (s.withFb m).cfgH = s.cfgH := rfl
@[simp] theorem withFb_cfgVariant (m : Memory) : (s.withFb m).cfgVariant = s.cfgVariant := rfl
@[simp] theorem withFb_configured (m : Memory) : (s.withFb m).configured = s.configured := rfl
@[simp] theorem withFb_fault (m : Memory) : (s.withFb m).fault = s.fault := rfl
@[simp] theorem withFb_status (m : Memory) : (s.withFb m).status = s.status := rfl
@[simp] theorem withFb_result (m : Memory) : (s.withFb m).result = s.result := rfl
@[simp] theorem withFb_fb (m : Memory) : (s.withFb m).fb = m := rfl
@[simp] theorem withFb_opb (m : Memory) : (s.withFb m).opb = s.opb := rfl
@[simp] theorem withFb_params (m : Memory) : (s.withFb m).params = s.params := rfl
@[simp] theorem withFb_host (m : Memory) : (s.withFb m).host = s.host := rfl
@[simp] theorem withFb_transport (m : Memory) : (s.withFb m).transport = s.transport := rfl
@[simp] theorem withFb_ackDraws (m : Memory) : (s.withFb m).ackDraws = s.ackDraws := rfl
@[simp] theorem withFb_resets (m : Memory) : (s.withFb m).resets = s.resets := rfl
@[simp] theorem withFb_sends (m : Memory) : (s.withFb m).sends = s.sends := rfl
@[simp] theorem withFb_reads (m : Memory) : (s.withFb m).reads = s.reads := rfl
@[simp] theorem withFb_width (m : Memory) : (s.withFb m).width = s.width := rfl
@[simp] theorem withFb_height (m : Memory) : (s.withFb m).height = s.height := rfl
@[simp] theorem withFb_bpr (m : Memory) : (s.withFb m).bpr = s.bpr := rfl
@[simp] theorem withFb_fbSize (m : Memory) : (s.withFb m).fbSize = s.fbSize := rfl
@[simp] theorem withFb_opbByte (m : Memory) (a' : Nat) : (s.withFb m).opbByte a' = s.opbByte a' := rfl

/-! `withOpb`. -/

@[simp] theorem withOpb_cfgW (m : Memory) : (s.withOpb m).cfgW = s.cfgW := rfl
@[simp] theorem withOpb_cfgH (m : Memory) : (s.withOpb m).cfgH = s.cfgH := rfl
@[simp] theorem withOpb_cfgVariant (m : Memory) : (s.withOpb m).cfgVariant = s.cfgVariant := rfl
@[simp] theorem withOpb_configured (m : Memory) : (s.withOpb m).configured = s.configured := rfl
@[simp] theorem withOpb_fault (m : Memory) : (s.withOpb m).fault = s.fault := rfl
@[simp] theorem withOpb_status (m : Memory) : (s.withOpb m).status = s.status := rfl
@[simp] theorem withOpb_result (m : Memory) : (s.withOpb m).result = s.result := rfl
@[simp] theorem withOpb_fb (m : Memory) : (s.withOpb m).fb = s.fb := rfl
@[simp] theorem withOpb_opb (m : Memory) : (s.withOpb m).opb = m := rfl
@[simp] theorem withOpb_params (m : Memory) : (s.withOpb m).params = s.params := rfl
@[simp] theorem withOpb_host (m : Memory) : (s.withOpb m).host = s.host := rfl
@[simp] theorem withOpb_transport (m : Memory) : (s.withOpb m).transport = s.transport := rfl
@[simp] theorem withOpb_ackDraws (m : Memory) : (s.withOpb m).ackDraws = s.ackDraws := rfl
@[simp] theorem withOpb_resets (m : Memory) : (s.withOpb m).resets = s.resets := rfl
@[simp] theorem withOpb_sends (m : Memory) : (s.withOpb m).sends = s.sends := rfl
@[simp] theorem withOpb_reads (m : Memory) : (s.withOpb m).reads = s.reads := rfl
@[simp] theorem withOpb_width (m : Memory) : (s.withOpb m).width = s.width := rfl
@[simp] theorem withOpb_height (m : Memory) : (s.withOpb m).height = s.height := rfl
@[simp] theorem withOpb_bpr (m : Memory) : (s.withOpb m).bpr = s.bpr := rfl
@[simp] theorem withOpb_fbSize (m : Memory) : (s.withOpb m).fbSize = s.fbSize := rfl
@[simp] theorem withOpb_fbByte (m : Memory) (a' : Nat) : (s.withOpb m).fbByte a' = s.fbByte a' := rfl
@[simp] theorem withOpb_pix (m : Memory) (x y : Nat) : (s.withOpb m).pix x y = s.pix x y := rfl
@[simp] theorem withOpb_rowRecord (m : Memory) (y : Nat) : rowRecord (s.withOpb m) y = rowRecord s y := rfl

/-! `withHost`. -/

@[simp] theorem withHost_cfgW (l : List HostAction) : (s.withHost l).cfgW = s.cfgW := rfl
@[simp] theorem withHost_cfgH (l : List HostAction) : (s.withHost l).cfgH = s.cfgH := rfl
@[simp] theorem withHost_cfgVariant (l : List HostAction) : (s.withHost l).cfgVariant = s.cfgVariant := rfl
@[simp] theorem withHost_configured (l : List HostAction) : (s.withHost l).configured = s.configured := rfl
@[simp] theorem withHost_fault (l : List HostAction) : (s.withHost l).fault = s.fault := rfl
@[simp] theorem withHost_status (l : List HostAction) : (s.withHost l).status = s.status := rfl
@[simp] theorem withHost_result (l : List HostAction) : (s.withHost l).result = s.result := rfl
@[simp] theorem withHost_fb (l : List HostAction) : (s.withHost l).fb = s.fb := rfl
@[simp] theorem withHost_opb (l : List HostAction) : (s.withHost l).opb = s.opb := rfl
@[simp] theorem withHost_params (l : List HostAction) : (s.withHost l).params = s.params := rfl
@[simp] theorem withHost_host (l : List HostAction) : (s.withHost l).host = l := rfl
@[simp] theorem withHost_transport (l : List HostAction) : (s.withHost l).transport = s.transport := rfl
@[simp] theorem withHost_ackDraws (l : List HostAction) : (s.withHost l).ackDraws = s.ackDraws := rfl
@[simp] theorem withHost_resets (l : List HostAction) : (s.withHost l).resets = s.resets := rfl
@[simp] theorem withHost_sends (l : List HostAction) : (s.withHost l).sends = s.sends := rfl
@[simp] theorem withHost_reads (l : List HostAction) : (s.withHost l).reads = s.reads := rfl
@[simp] theorem withHost_width (l : List HostAction) : (s.withHost l).width = s.width := rfl
@[simp] theorem withHost_height (l : List HostAction) : (s.withHost l).height = s.height := rfl
@[simp] theorem withHost_bpr (l : List HostAction) : (s.withHost l).bpr = s.bpr := rfl
@[simp] theorem withHost_fbSize (l : List HostAction) : (s.withHost l).fbSize = s.fbSize := rfl
@[simp] theorem withHost_fbByte (l : List HostAction) (a' : Nat) : (s.withHost l).fbByte a' = s.fbByte a' := rfl
@[simp] theorem withHost_pix (l : List HostAction) (x y : Nat) : (s.withHost l).pix x y = s.pix x y := rfl
@[simp] theorem withHost_rowRecord (l : List HostAction) (y : Nat) : rowRecord (s.withHost l) y = rowRecord s y := rfl
@[simp] theorem withHost_opbByte (l : List HostAction) (a' : Nat) : (s.withHost l).opbByte a' = s.opbByte a' := rfl

/-! `withTransport`. -/

@[simp] theorem withTransport_cfgW (l : List TransportEvent) : (s.withTransport l).cfgW = s.cfgW := rfl
@[simp] theorem withTransport_cfgH (l : List TransportEvent) : (s.withTransport l).cfgH = s.cfgH := rfl
@[simp] theorem withTransport_cfgVariant (l : List TransportEvent) : (s.withTransport l).cfgVariant = s.cfgVariant := rfl
@[simp] theorem withTransport_configured (l : List TransportEvent) : (s.withTransport l).configured = s.configured := rfl
@[simp] theorem withTransport_fault (l : List TransportEvent) : (s.withTransport l).fault = s.fault := rfl
@[simp] theorem withTransport_status (l : List TransportEvent) : (s.withTransport l).status = s.status := rfl
@[simp] theorem withTransport_result (l : List TransportEvent) : (s.withTransport l).result = s.result := rfl
@[simp] theorem withTransport_fb (l : List TransportEvent) : (s.withTransport l).fb = s.fb := rfl
@[simp] theorem withTransport_opb (l : List TransportEvent) : (s.withTransport l).opb = s.opb := rfl
@[simp] theorem withTransport_params (l : List TransportEvent) : (s.withTransport l).params = s.params := rfl
@[simp] theorem withTransport_host (l : List TransportEvent) : (s.withTransport l).host = s.host := rfl
@[simp] theorem withTransport_transport (l : List TransportEvent) : (s.withTransport l).transport = l := rfl
@[simp] theorem withTransport_ackDraws (l : List TransportEvent) : (s.withTransport l).ackDraws = s.ackDraws := rfl
@[simp] theorem withTransport_resets (l : List TransportEvent) : (s.withTransport l).resets = s.resets := rfl
@[simp] theorem withTransport_sends (l : List TransportEvent) : (s.withTransport l).sends = s.sends := rfl
@[simp] theorem withTransport_reads (l : List TransportEvent) : (s.withTransport l).reads = s.reads := rfl
@[simp] theorem withTransport_width (l : List TransportEvent) : (s.withTransport l).width = s.width := rfl
@[simp] theorem withTransport_height (l : List TransportEvent) : (s.withTransport l).height = s.height := rfl
@[simp] theorem withTransport_bpr (l : List TransportEvent) : (s.withTransport l).bpr = s.bpr := rfl
@[simp] theorem withTransport_fbSize (l : List TransportEvent) : (s.withTransport l).fbSize = s.fbSize := rfl
@[simp] theorem withTransport_fbByte (l : List TransportEvent) (a' : Nat) : (s.withTransport l).fbByte a' = s.fbByte a' := rfl
@[simp] theorem withTransport_pix (l : List TransportEvent) (x y : Nat) : (s.withTransport l).pix x y = s.pix x y := rfl
@[simp] theorem withTransport_rowRecord (l : List TransportEvent) (y : Nat) : rowRecord (s.withTransport l) y = rowRecord s y := rfl
@[simp] theorem withTransport_opbByte (l : List TransportEvent) (a' : Nat) : (s.withTransport l).opbByte a' = s.opbByte a' := rfl

/-! `withDraw`. -/

@[simp] theorem withDraw_cfgW : (s.withDraw).cfgW = s.cfgW := rfl
@[simp] theorem withDraw_cfgH : (s.withDraw).cfgH = s.cfgH := rfl
@[simp] theorem withDraw_cfgVariant : (s.withDraw).cfgVariant = s.cfgVariant := rfl
@[simp] theorem withDraw_configured : (s.withDraw).configured = s.configured := rfl
@[simp] theorem withDraw_fault : (s.withDraw).fault = s.fault := rfl
@[simp] theorem withDraw_status : (s.withDraw).status = s.status := rfl
@[simp] theorem withDraw_result : (s.withDraw).result = s.result := rfl
@[simp] theorem withDraw_fb : (s.withDraw).fb = s.fb := rfl
@[simp] theorem withDraw_opb : (s.withDraw).opb = s.opb := rfl
@[simp] theorem withDraw_params : (s.withDraw).params = s.params := rfl
@[simp] theorem withDraw_host : (s.withDraw).host = s.host := rfl
@[simp] theorem withDraw_transport : (s.withDraw).transport = s.transport := rfl
@[simp] theorem withDraw_ackDraws : (s.withDraw).ackDraws = s.ackDraws + 1 := rfl
@[simp] theorem withDraw_resets : (s.withDraw).resets = s.resets := rfl
@[simp] theorem withDraw_sends : (s.withDraw).sends = s.sends := rfl
@[simp] theorem withDraw_reads : (s.withDraw).reads = s.reads := rfl
@[simp] theorem withDraw_width : (s.withDraw).width = s.width := rfl
@[simp] theorem withDraw_height : (s.withDraw).height = s.height := rfl
@[simp] theorem withDraw_bpr : (s.withDraw).bpr = s.bpr := rfl
@[simp] theorem withDraw_fbSize : (s.withDraw).fbSize = s.fbSize := rfl
@[simp] theorem withDraw_fbByte (a' : Nat) : (s.withDraw).fbByte a' = s.fbByte a' := rfl
@[simp] theorem withDraw_pix (x y : Nat) : (s.withDraw).pix x y = s.pix x y := rfl
@[simp] theorem withDraw_rowRecord (y : Nat) : rowRecord (s.withDraw) y = rowRecord s y := rfl
@[simp] theorem withDraw_opbByte (a' : Nat) : (s.withDraw).opbByte a' = s.opbByte a' := rfl

/-! `withSend`. -/

@[simp] theorem withSend_cfgW (r : SendRecord) : (s.withSend r).cfgW = s.cfgW := rfl
@[simp] theorem withSend_cfgH (r : SendRecord) : (s.withSend r).cfgH = s.cfgH := rfl
@[simp] theorem withSend_cfgVariant (r : SendRecord) : (s.withSend r).cfgVariant = s.cfgVariant := rfl
@[simp] theorem withSend_configured (r : SendRecord) : (s.withSend r).configured = s.configured := rfl
@[simp] theorem withSend_fault (r : SendRecord) : (s.withSend r).fault = s.fault := rfl
@[simp] theorem withSend_status (r : SendRecord) : (s.withSend r).status = s.status := rfl
@[simp] theorem withSend_result (r : SendRecord) : (s.withSend r).result = s.result := rfl
@[simp] theorem withSend_fb (r : SendRecord) : (s.withSend r).fb = s.fb := rfl
@[simp] theorem withSend_opb (r : SendRecord) : (s.withSend r).opb = s.opb := rfl
@[simp] theorem withSend_params (r : SendRecord) : (s.withSend r).params = s.params := rfl
@[simp] theorem withSend_host (r : SendRecord) : (s.withSend r).host = s.host := rfl
@[simp] theorem withSend_transport (r : SendRecord) : (s.withSend r).transport = s.transport := rfl
@[simp] theorem withSend_ackDraws (r : SendRecord) : (s.withSend r).ackDraws = s.ackDraws := rfl
@[simp] theorem withSend_resets (r : SendRecord) : (s.withSend r).resets = s.resets := rfl
@[simp] theorem withSend_sends (r : SendRecord) : (s.withSend r).sends = s.sends ++ [r] := rfl
@[simp] theorem withSend_reads (r : SendRecord) : (s.withSend r).reads = s.reads := rfl
@[simp] theorem withSend_width (r : SendRecord) : (s.withSend r).width = s.width := rfl
@[simp] theorem withSend_height (r : SendRecord) : (s.withSend r).height = s.height := rfl
@[simp] theorem withSend_bpr (r : SendRecord) : (s.withSend r).bpr = s.bpr := rfl
@[simp] theorem withSend_fbSize (r : SendRecord) : (s.withSend r).fbSize = s.fbSize := rfl
@[simp] theorem withSend_fbByte (r : SendRecord) (a' : Nat) : (s.withSend r).fbByte a' = s.fbByte a' := rfl
@[simp] theorem withSend_pix (r : SendRecord) (x y : Nat) : (s.withSend r).pix x y = s.pix x y := rfl
@[simp] theorem withSend_rowRecord (r : SendRecord) (y : Nat) : rowRecord (s.withSend r) y = rowRecord s y := rfl
@[simp] theorem withSend_opbByte (r : SendRecord) (a' : Nat) : (s.withSend r).opbByte a' = s.opbByte a' := rfl

/-! `withRead`. -/

@[simp] theorem withRead_cfgW (d : HostData) : (s.withRead d).cfgW = s.cfgW := rfl
@[simp] theorem withRead_cfgH (d : HostData) : (s.withRead d).cfgH = s.cfgH := rfl
@[simp] theorem withRead_cfgVariant (d : HostData) : (s.withRead d).cfgVariant = s.cfgVariant := rfl
@[simp] theorem withRead_configured (d : HostData) : (s.withRead d).configured = s.configured := rfl
@[simp] theorem withRead_fault (d : HostData) : (s.withRead d).fault = s.fault := rfl
@[simp] theorem withRead_status (d : HostData) : (s.withRead d).status = s.status := rfl
@[simp] theorem withRead_result (d : HostData) : (s.withRead d).result = s.result := rfl
@[simp] theorem withRead_fb (d : HostData) : (s.withRead d).fb = s.fb := rfl
@[simp] theorem withRead_opb (d : HostData) : (s.withRead d).opb = s.opb := rfl
@[simp] theorem withRead_params (d : HostData) : (s.withRead d).params = s.params := rfl
@[simp] theorem withRead_host (d : HostData) : (s.withRead d).host = s.host := rfl
@[simp] theorem withRead_transport (d : HostData) : (s.withRead d).transport = s.transport := rfl
@[simp] theorem withRead_ackDraws (d : HostData) : (s.withRead d).ackDraws = s.ackDraws := rfl
@[simp] theorem withRead_resets (d : HostData) : (s.withRead d).resets = s.resets := rfl
@[simp] theorem withRead_sends (d : HostData) : (s.withRead d).sends = s.sends := rfl
@[simp] theorem withRead_reads (d : HostData) : (s.withRead d).reads = s.reads ++ [d] := rfl
@[simp] theorem withRead_width (d : HostData) : (s.withRead d).width = s.width := rfl
@[simp] theorem withRead_height (d : HostData) : (s.withRead d).height = s.height := rfl
@[simp] theorem withRead_bpr (d : HostData) : (s.withRead d).bpr = s.bpr := rfl
@[simp] theorem withRead_fbSize (d : HostData) : (s.withRead d).fbSize = s.fbSize := rfl
@[simp] theorem withRead_fbByte (d : HostData) (a' : Nat) : (s.withRead d).fbByte a' = s.fbByte a' := rfl
@[simp] theorem withRead_pix (d : HostData) (x y : Nat) : (s.withRead d).pix x y = s.pix x y := rfl
@[simp] theorem withRead_rowRecord (d : HostData) (y : Nat) : rowRecord (s.withRead d) y = rowRecord s y := rfl
@[simp] theorem withRead_opbByte (d : HostData) (a' : Nat) : (s.withRead d).opbByte a' = s.opbByte a' := rfl

/-! `afterReset`. -/

@[simp] theorem afterReset_cfgW : (s.afterReset).cfgW = 0 := rfl
@[simp] theorem afterReset_cfgH : (s.afterReset).cfgH = 0 := rfl
@[simp] theorem afterReset_cfgVariant : (s.afterReset).cfgVariant = .linear := rfl
@[simp] theorem afterReset_configured : (s.afterReset).configured = false := rfl
@[simp] theorem afterReset_fault : (s.afterReset).fault = false := rfl
@[simp] theorem afterReset_status : (s.afterReset).status = 0 := rfl
@[simp] theorem afterReset_result : (s.afterReset).result = 0 := rfl
@[simp] theorem afterReset_fb : (s.afterReset).fb = [] := rfl
@[simp] theorem afterReset_opb : (s.afterReset).opb = [] := rfl
@[simp] theorem afterReset_params : (s.afterReset).params = s.params := rfl
@[simp] theorem afterReset_host : (s.afterReset).host = s.host := rfl
@[simp] theorem afterReset_transport : (s.afterReset).transport = s.transport := rfl
@[simp] theorem afterReset_ackDraws : (s.afterReset).ackDraws = s.ackDraws := rfl
@[simp] theorem afterReset_resets : (s.afterReset).resets = s.resets + 1 := rfl
@[simp] theorem afterReset_sends : (s.afterReset).sends = s.sends := rfl
@[simp] theorem afterReset_reads : (s.afterReset).reads = s.reads := rfl

/-- The geometry that INIT writes. -/
theorem withConfig_width (w h : Nat) (v : Variant) (hw : w < 4096) : (s.withConfig w h v).width = w := by
  simp [State.width, Nat.mod_eq_of_lt hw]

theorem withConfig_height (w h : Nat) (v : Variant) (hh : h < 4096) : (s.withConfig w h v).height = h := by
  simp [State.height, Nat.mod_eq_of_lt hh]

/-- After a reset the raster is empty. -/
@[simp] theorem afterReset_height : s.afterReset.height = 0 := rfl
@[simp] theorem afterReset_width : s.afterReset.width = 0 := rfl
@[simp] theorem afterReset_fbSize : s.afterReset.fbSize = 0 := by simp [State.fbSize]

theorem width_lt : s.width < 4096 := s.cfgW.isLt
theorem height_lt : s.height < 4096 := s.cfgH.isLt

end Sys2Proof.Machine
end

