-- ==== Sys2Proof/Laws/Ops.lean ====
section
/-! SUPPORT. What each shared operation can do, once: the answer to a SEND record, the refresh step, a glyph, a
string. -/

namespace Sys2Proof.Machine

/-- The state after the records `rs` went out, the transport's remaining moves being `t` and the count of free
draws `d`. -/
def State.afterSends (s : State) (rs : List SendRecord) (t : List TransportEvent) (d : Nat) : State :=
  { s with sends := s.sends ++ rs, transport := t, ackDraws := d }

section afterSends
variable (s : State) (rs : List SendRecord) (t : List TransportEvent) (d : Nat)

@[simp] theorem afterSends_cfgW : (s.afterSends rs t d).cfgW = s.cfgW := rfl
@[simp] theorem afterSends_cfgH : (s.afterSends rs t d).cfgH = s.cfgH := rfl
@[simp] theorem afterSends_cfgVariant : (s.afterSends rs t d).cfgVariant = s.cfgVariant := rfl
@[simp] theorem afterSends_configured : (s.afterSends rs t d).configured = s.configured := rfl
@[simp] theorem afterSends_fault : (s.afterSends rs t d).fault = s.fault := rfl
@[simp] theorem afterSends_status : (s.afterSends rs t d).status = s.status := rfl
@[simp] theorem afterSends_result : (s.afterSends rs t d).result = s.result := rfl
@[simp] theorem afterSends_fb : (s.afterSends rs t d).fb = s.fb := rfl
@[simp] theorem afterSends_opb : (s.afterSends rs t d).opb = s.opb := rfl
@[simp] theorem afterSends_params : (s.afterSends rs t d).params = s.params := rfl
@[simp] theorem afterSends_host : (s.afterSends rs t d).host = s.host := rfl
@[simp] theorem afterSends_transport : (s.afterSends rs t d).transport = t := rfl
@[simp] theorem afterSends_ackDraws : (s.afterSends rs t d).ackDraws = d := rfl
@[simp] theorem afterSends_resets : (s.afterSends rs t d).resets = s.resets := rfl
@[simp] theorem afterSends_sends : (s.afterSends rs t d).sends = s.sends ++ rs := rfl
@[simp] theorem afterSends_reads : (s.afterSends rs t d).reads = s.reads := rfl
@[simp] theorem afterSends_width : (s.afterSends rs t d).width = s.width := rfl
@[simp] theorem afterSends_height : (s.afterSends rs t d).height = s.height := rfl
@[simp] theorem afterSends_bpr : (s.afterSends rs t d).bpr = s.bpr := rfl
@[simp] theorem afterSends_fbSize : (s.afterSends rs t d).fbSize = s.fbSize := rfl
@[simp] theorem afterSends_fbByte (a : Nat) : (s.afterSends rs t d).fbByte a = s.fbByte a := rfl
@[simp] theorem afterSends_pix (x y : Nat) : (s.afterSends rs t d).pix x y = s.pix x y := rfl
@[simp] theorem afterSends_opbByte (a : Nat) : (s.afterSends rs t d).opbByte a = s.opbByte a := rfl
@[simp] theorem afterSends_rowRecord (r : Nat) : rowRecord (s.afterSends rs t d) r = rowRecord s r := rfl

theorem afterSends_afterSends (rs' : List SendRecord) (t' : List TransportEvent) (d' : Nat) :
    (s.afterSends rs t d).afterSends rs' t' d' = s.afterSends (rs ++ rs') t' d' := by
  simp [State.afterSends]

theorem afterSends_nil : s.afterSends [] s.transport s.ackDraws = s := by
  simp [State.afterSends]

end afterSends

/-- A SEND record goes out and one move of the surroundings is taken; nothing else changes. -/
theorem send_cases (r : SendRecord) (s : State) :
    (∃ e rest, s.transport = e :: rest ∧ send r s = (e, s.afterSends [r] rest s.ackDraws)) ∨
    (∃ a, s.transport = [] ∧ send r s = (.ack a, s.afterSends [r] [] (s.ackDraws + 1))) := by
  cases h : s.transport with
  | nil =>
    refine .inr ⟨Config.freeAck s.ackDraws, rfl, ?_⟩
    simp [send, takeEvent, h, State.withSend, State.withDraw, State.afterSends]
  | cons e rest =>
    refine .inl ⟨e, rest, rfl, ?_⟩
    simp [send, takeEvent, h, State.withSend, State.withTransport, State.afterSends]

/-- The SEND record when the transport's next move is listed. -/
theorem send_listed {r : SendRecord} {s : State} {e : TransportEvent} {rest : List TransportEvent}
    (h : s.transport = e :: rest) : send r s = (e, s.afterSends [r] rest s.ackDraws) := by
  simp [send, takeEvent, h, State.withSend, State.withTransport, State.afterSends]

/-- Everything the refresh step can do: all rows go out; or it ends at some row, the records up to that row's
gone out, with a failure, a reset or no answer. `t` is what is left of the transport's moves. -/
theorem flushEach_cases (rows : List Nat) (s : State) :
    (∃ t d, t <:+ s.transport ∧ flushEach rows s = .going (s.afterSends (rows.map (rowRecord s)) t d)) ∨
    (∃ k t d, k < rows.length ∧ t <:+ s.transport ∧
      (flushEach rows s = .ended (raise .transportFailure
          (s.afterSends ((rows.take (k + 1)).map (rowRecord s)) t d)) ∨
        flushEach rows s = .ended (.next
          (s.afterSends ((rows.take (k + 1)).map (rowRecord s)) t d).afterReset))) ∨
    (.never ∈ s.transport ∧ flushEach rows s = .ended (.fault .transportNeverAnswers)) := by
  induction rows generalizing s with
  | nil => exact .inl ⟨s.transport, s.ackDraws, List.suffix_rfl, by simp [flushEach, afterSends_nil]⟩
  | cons r rest ih =>
    by_cases hok : ∃ t d, t <:+ s.transport ∧
        send (rowRecord s r) s = (.ack .ok, s.afterSends [rowRecord s r] t d)
    · obtain ⟨t, d, ht, hsend⟩ := hok
      have hf : flushEach (r :: rest) s = flushEach rest (s.afterSends [rowRecord s r] t d) := by
        rw [flushEach, hsend]
      rw [hf]
      rcases ih (s.afterSends [rowRecord s r] t d) with ⟨t', d', ht', h⟩ | ⟨k, t', d', hk, ht', h⟩ | ⟨hn, h⟩
      · rw [afterSends_afterSends] at h
        exact .inl ⟨t', d', ht'.trans ht, h⟩
      · rw [afterSends_afterSends] at h
        exact .inr (.inl ⟨k + 1, t', d', by simpa using hk, ht'.trans ht, h⟩)
      · exact .inr (.inr ⟨ht.subset hn, h⟩)
    · rcases send_cases (rowRecord s r) s with ⟨e, rest', hs, hsend⟩ | ⟨a, hs, hsend⟩
      · have hsuf : rest' <:+ s.transport := by rw [hs]; exact List.suffix_cons _ _
        match e, hsend with
        | .ack .ok, hsend => exact absurd ⟨_, _, hsuf, hsend⟩ hok
        | .ack .fail, hsend =>
          exact .inr (.inl ⟨0, rest', s.ackDraws, by simp, hsuf, .inl (by simp [flushEach, hsend])⟩)
        | .reset, hsend =>
          exact .inr (.inl ⟨0, rest', s.ackDraws, by simp, hsuf, .inr (by simp [flushEach, hsend])⟩)
        | .never, hsend => exact .inr (.inr ⟨by simp [hs], by simp [flushEach, hsend]⟩)
      · have hsuf : [] <:+ s.transport := List.nil_suffix
        match a, hsend with
        | .ok, hsend => exact absurd ⟨_, _, hsuf, hsend⟩ hok
        | .fail, hsend =>
          exact .inr (.inl ⟨0, [], s.ackDraws + 1, by simp, hsuf, .inl (by simp [flushEach, hsend])⟩)

/-- All rows are acknowledged: all go out (R203). -/
theorem flushEach_ok {rows : List Nat} {s : State} {rest : List TransportEvent}
    (h : s.Acknowledged rows.length rest) :
    flushEach rows s = .going (s.afterSends (rows.map (rowRecord s)) rest s.ackDraws) := by
  induction rows generalizing s with
  | nil =>
    have : s.transport = rest := by simpa [State.Acknowledged] using h
    subst this
    simp [flushEach, afterSends_nil]
  | cons r rows ih =>
    have h' : s.transport = .ack .ok :: (List.replicate rows.length (.ack .ok) ++ rest) := h
    rw [flushEach, send_listed h']
    simp only
    rw [ih (show (s.afterSends [rowRecord s r] (List.replicate rows.length (.ack .ok) ++ rest)
      s.ackDraws).Acknowledged rows.length rest from rfl), afterSends_afterSends]
    rfl

/-- How a command ends at a SEND record whose answer is not `ok` (R205, R250, R258). -/
def endOf (e : TransportEvent) (s : State) : Result :=
  match e with
  | .never => .fault .transportNeverAnswers
  | .reset => .next s.afterReset
  | .ack _ => raise .transportFailure s

/-- The answer to row `k` is not `ok`: the records up to row `k`'s go out, and the answer decides. -/
theorem flushEach_stops {rows : List Nat} {s : State} {k : Nat} {e : TransportEvent}
    {rest : List TransportEvent} (hk : k < rows.length) (he : e ≠ .ack .ok)
    (h : s.AcknowledgedThen k e rest) :
    flushEach rows s = .ended (endOf e
      (s.afterSends ((rows.take (k + 1)).map (rowRecord s)) rest s.ackDraws)) := by
  induction rows generalizing s k with
  | nil => simp at hk
  | cons r rows ih =>
    cases k with
    | zero =>
      have h' : s.transport = e :: rest := by simpa [State.AcknowledgedThen] using h
      rw [flushEach, send_listed h']
      match e, he with
      | .ack .fail, _ => rfl
      | .reset, _ => rfl
      | .never, _ => rfl
    | succ k =>
      have h' : s.transport = .ack .ok :: (List.replicate k (.ack .ok) ++ e :: rest) := h
      rw [flushEach, send_listed h']
      simp only
      rw [ih (by simpa using hk) (show (s.afterSends [rowRecord s r]
        (List.replicate k (.ack .ok) ++ e :: rest) s.ackDraws).AcknowledgedThen k e rest from rfl),
        afterSends_afterSends]
      rfl

/-- Everything a string can do, from one fact about a glyph: if drawing a glyph inside the raster keeps `P`, the
string ends its loop in a state with `P`, or with the vertical check, or inside a glyph. -/
theorem drawString_cases {f : Font} {mode : Mode} {spacing y : Nat} {P : State → Prop}
    (keep : ∀ c x s s', P s → x + f.fw ≤ s.width → y + f.fh ≤ s.height →
      drawGlyph f c mode x y s = .going s' → P s')
    (chars : List Nat) (cur n : Nat) (s : State) (hs : P s) :
    (∃ u m, P u ∧ drawString f mode spacing y chars cur n s = .going (u.withResult 0 m)) ∨
    (∃ u, P u ∧ y + f.fh > u.height ∧
      drawString f mode spacing y chars cur n s = .ended (raise .outOfBounds u)) ∨
    (∃ u c x r, P u ∧ x + f.fw ≤ u.width ∧ y + f.fh ≤ u.height ∧
      drawGlyph f c mode x y u = .ended r ∧
      drawString f mode spacing y chars cur n s = .ended r) := by
  induction chars generalizing cur n s with
  | nil => exact .inl ⟨s, n, hs, rfl⟩
  | cons c rest ih =>
    by_cases hw : cur + f.fw > s.width
    · exact .inl ⟨s, n, hs, by simp [drawString, hw]⟩
    by_cases hh : y + f.fh > s.height
    · exact .inr (.inl ⟨s, hs, hh, by simp [drawString, hw, hh]⟩)
    cases hg : drawGlyph f c mode cur y s with
    | ended r =>
      exact .inr (.inr ⟨s, c, cur, r, hs, by omega, by omega, hg, by simp [drawString, hw, hh, hg]⟩)
    | going s' =>
      have := ih (cur + f.fw + spacing) (n + 1) s' (keep c cur s s' hs (by omega) (by omega) hg)
      simpa [drawString, hw, hh, hg] using this

end Sys2Proof.Machine
end

