-- ==== Sys2Proof/Laws/Draw.lean ====
section
/-! SUPPORT. The raster seen as pixels: what a fill, a region merge and a glyph do to every pixel and pad bit. -/

namespace Sys2Proof.Machine

theorem bpr_covers (s : State) : s.width ≤ 8 * s.bpr := by unfold State.bpr ceil8; omega

theorem fbIndex_lt {s : State} {j r : Nat} (hj : j < s.bpr) (hr : r < s.height) :
    fbIndex s.bpr j r < s.fbSize := by
  have : (r + 1) * s.bpr ≤ s.height * s.bpr := Nat.mul_le_mul_right _ hr
  rw [Nat.add_mul] at this
  simp only [fbIndex, State.fbSize]
  omega

/-- Every allocated address is that of some byte of some row (R51). -/
theorem exists_fbIndex {s : State} {a : Nat} (ha : a < s.fbSize) :
    ∃ j r, j < s.bpr ∧ r < s.height ∧ a = fbIndex s.bpr j r := by
  have hb : 0 < s.bpr := by
    rcases Nat.eq_zero_or_pos s.bpr with h | h
    · simp [State.fbSize, h] at ha
    · exact h
  refine ⟨a % s.bpr, a / s.bpr, Nat.mod_lt _ hb, ?_, ?_⟩
  · rw [Nat.div_lt_iff_lt_mul hb]; exact ha
  · rw [fbIndex, Nat.mul_comm]; exact (Nat.div_add_mod a s.bpr).symm

theorem fbByte_eq {s : State} {a : Nat} (ha : a < s.fbSize) : s.fbByte a = fbRead s.fb a := by
  simp [State.fbByte, ha]

theorem pix_eq {s : State} {c r : Nat} (hc : c < 8 * s.bpr) (hr : r < s.height) :
    s.pix c r = pixelOf (fbRead s.fb (fbIndex s.bpr (c / 8) r)) (c % 8) := by
  rw [State.pix, fbByte_eq (fbIndex_lt (by omega) hr)]

/-- A byte of a row, pixel by pixel. -/
theorem pixelOf_fbByte (s : State) {j r p : Nat} (hp : p < 8) :
    pixelOf (s.fbByte (fbIndex s.bpr j r)) p = s.pix (8 * j + p) r := by
  rw [State.pix, show (8 * j + p) / 8 = j by omega, show (8 * j + p) % 8 = p by omega]

/-- Two states of one geometry whose pixels and pad bits agree have the same allocated bytes. -/
theorem fbByte_of_pix {s t : State} (hb : t.bpr = s.bpr)
    (h : ∀ c r, c < 8 * s.bpr → r < s.height → t.pix c r = s.pix c r) {a : Nat} (ha : a < s.fbSize) :
    t.fbByte a = s.fbByte a := by
  obtain ⟨j, r, hj, hr, rfl⟩ := exists_fbIndex ha
  refine byte_ext fun p hp => ?_
  rw [pixelOf_fbByte s hp, ← hb, pixelOf_fbByte t hp, h _ _ (by omega) hr]

/-- The fill of INIT and CLEAR, byte by byte. -/
theorem fbByte_fill (s : State) (v : Byte) {a : Nat} (ha : a < s.fbSize) :
    (s.withFb (Memory.fill Config.fbBlank s.fb s.fbSize v)).fbByte a = v := by
  rw [fbByte_eq (by simpa using ha), withFb_fb, fbRead_fill, if_pos ha]

/-- A region merge inside the raster, pixel by pixel (R131): `c` runs over the pad bits too. -/
theorem pix_merge {s : State} {x y width height : Nat} {source : Nat → Byte} (hw : 0 < width)
    (hx : x + width ≤ s.width) {c r : Nat} (hc : c < 8 * s.bpr) (hr : r < s.height) :
    (s.withFb (mergeRegion s.bpr x y width height source s.fb)).pix c r
      = if x ≤ c ∧ c < x + width ∧ y ≤ r ∧ r < y + height
        then srcPix source width (c - x) (r - y) else s.pix c r := by
  have hfit : (x + width - 1) / 8 < s.bpr := by
    have := bpr_covers s
    omega
  rw [pix_eq (by simpa using hc) (by simpa using hr), pix_eq hc hr, withFb_fb, withFb_bpr,
    pixel_mergeRegion hw hfit (by omega) (by omega), show 8 * (c / 8) + c % 8 = c by omega]

/-- The rendered glyph, pixel by pixel (R156). -/
theorem srcPix_render (f : Font) (c : Nat) (mode : Mode) (x y : Nat) (s : State) {q i : Nat}
    (hq : q < f.fw) (hi : i < f.fh) :
    srcPix (fun a => (renderChar f c mode x y s).getD a 0) f.fw q i
      = transformPixel s.params mode (glyphPix f (substChar c) q i) (s.pix (x + q) (y + i)) := by
  have hg : 0 < ceil8 f.fw := by unfold ceil8; omega
  have hq8 : q / 8 < ceil8 f.fw := by unfold ceil8; omega
  have hlt : i * ceil8 f.fw + q / 8 < f.fh * ceil8 f.fw := by
    have : (i + 1) * ceil8 f.fw ≤ f.fh * ceil8 f.fw := Nat.mul_le_mul_right _ hi
    rw [Nat.add_mul] at this
    omega
  have hdiv : (i * ceil8 f.fw + q / 8) / ceil8 f.fw = i := by
    rw [Nat.mul_comm, Nat.mul_add_div hg, Nat.div_eq_of_lt hq8, Nat.add_zero]
  have hmod : (i * ceil8 f.fw + q / 8) % ceil8 f.fw = q / 8 := by
    rw [Nat.mul_comm, Nat.mul_add_mod, Nat.mod_eq_of_lt hq8]
  rw [srcPix, renderChar, List.getD_eq_getElem?_getD, List.getElem?_map, List.getElem?_range hlt]
  simp only [Option.map_some, Option.getD_some]
  rw [pixelOf_packByte _ (by omega)]
  simp only [hdiv, hmod, show 8 * (q / 8) + q % 8 = q by omega, hq, if_true]

/-- The state after a glyph's merge and before its refresh. -/
def State.withGlyph (s : State) (f : Font) (c : Nat) (mode : Mode) (x y : Nat) : State :=
  s.withFb (mergeRegion s.bpr x y f.fw f.fh (fun a => (renderChar f c mode x y s).getD a 0) s.fb)

theorem drawGlyph_eq (f : Font) (c : Nat) (mode : Mode) (x y : Nat) (s : State) :
    drawGlyph f c mode x y s = flushRows y f.fh (s.withGlyph f c mode x y) := rfl

/-- A glyph inside the raster, pixel by pixel (R157). -/
theorem pix_withGlyph {f : Font} {k : Nat} {mode : Mode} {x y : Nat} {s : State} (hw : 0 < f.fw)
    (hx : x + f.fw ≤ s.width) {c r : Nat} (hc : c < 8 * s.bpr) (hr : r < s.height) :
    (s.withGlyph f k mode x y).pix c r
      = if x ≤ c ∧ c < x + f.fw ∧ y ≤ r ∧ r < y + f.fh
        then transformPixel s.params mode (glyphPix f (substChar k) (c - x) (r - y)) (s.pix c r)
        else s.pix c r := by
  rw [State.withGlyph, pix_merge hw hx hc hr]
  by_cases h : x ≤ c ∧ c < x + f.fw ∧ y ≤ r ∧ r < y + f.fh
  · rw [if_pos h, if_pos h, srcPix_render _ _ _ _ _ _ (by omega) (by omega),
      show x + (c - x) = c by omega, show y + (r - y) = r by omega]
  · rw [if_neg h, if_neg h]

end Sys2Proof.Machine
end

