-- ==== Sys2Proof/Laws/Commands.lean ====
section
/-! SUPPORT. What each command can do, once. A command is rejected, or completes without touching the raster, or
draws: it then changes `FB`, sends whole rows, takes moves of the transport, and ends in one of four ways. -/

namespace Sys2Proof.Machine

/-- A record that refreshes some row of the raster (R203). -/
def wholeRow (s : State) (r : SendRecord) : Prop :=
  r.isCommand = false ∧ r.bytes.length = s.bpr ∧
    ∃ row, row < s.height ∧ r.addr = toPhysical s.cfgVariant s.height row

/-- `u` differs from `s` by drawing only. -/
structure Drawn (s u : State) : Prop where
  same : u = { s with fb := u.fb, sends := u.sends, transport := u.transport, ackDraws := u.ackDraws }
  sent : ∃ new, u.sends = s.sends ++ new ∧ ∀ r ∈ new, wholeRow s r
  took : u.transport <:+ s.transport

theorem Drawn.refl (s : State) : Drawn s s := ⟨rfl, ⟨[], by simp, by simp⟩, List.suffix_rfl⟩

theorem Drawn.geometry {s u : State} (h : Drawn s u) :
    u.width = s.width ∧ u.height = s.height ∧ u.bpr = s.bpr ∧ u.fbSize = s.fbSize ∧
    u.cfgVariant = s.cfgVariant ∧ u.params = s.params ∧ u.resets = s.resets ∧ u.opb = s.opb ∧
    u.configured = s.configured ∧ u.fault = s.fault ∧ u.result = s.result ∧ u.host = s.host ∧
    u.reads = s.reads ∧ u.cfgW = s.cfgW ∧ u.cfgH = s.cfgH ∧ u.status = s.status := by
  rw [h.same]
  exact ⟨rfl, rfl, rfl, rfl, rfl, rfl, rfl, rfl, rfl, rfl, rfl, rfl, rfl, rfl, rfl, rfl⟩

theorem Drawn.trans {s u v : State} (h : Drawn s u) (h' : Drawn u v) : Drawn s v := by
  obtain ⟨hw, hh, hb, -, hv, -⟩ := h.geometry
  obtain ⟨new, e, g⟩ := h.sent
  obtain ⟨new', e', g'⟩ := h'.sent
  refine ⟨?_, ⟨new ++ new', by rw [e', e, List.append_assoc], fun r hr => ?_⟩, h'.took.trans h.took⟩
  · have h1 := h.same
    have h2 := h'.same
    rw [h1] at h2
    exact h2
  · rcases List.mem_append.mp hr with hr | hr
    · exact g r hr
    · have := g' r hr
      rwa [wholeRow, hb, hv, hh] at this

theorem Drawn.withFb (s : State) (m : Memory) : Drawn s (s.withFb m) :=
  ⟨rfl, ⟨[], by simp, by simp⟩, List.suffix_rfl⟩

theorem rowRecord_wholeRow {s : State} {r : Nat} (hr : r < s.height) : wholeRow s (rowRecord s r) :=
  ⟨rfl, by simp [rowRecord, rowBytes], r, hr, rfl⟩

theorem Drawn.afterSends {s : State} {rows : List Nat} {t : List TransportEvent} (d : Nat)
    (hrows : ∀ r ∈ rows, r < s.height) (ht : t <:+ s.transport) :
    Drawn s (s.afterSends (rows.map (rowRecord s)) t d) := by
  refine ⟨rfl, ⟨_, rfl, fun r hr => ?_⟩, ht⟩
  obtain ⟨row, hrow, rfl⟩ := List.mem_map.mp hr
  exact rowRecord_wholeRow (hrows row hrow)

/-- A refresh step ended: by a failure, a reset, or without an answer. -/
def endsInRefresh (P : State → Prop) (s : State) (r : Result) : Prop :=
  (∃ u, Drawn s u ∧ P u ∧ r = .next (u.withStatus .transportFailure)) ∨
  (∃ u, Drawn s u ∧ P u ∧ r = .next u.afterReset) ∨
  (.never ∈ s.transport ∧ r = .fault .transportNeverAnswers)

/-- A drawing command ended: all its rows acknowledged, or in its refresh step. -/
def endsDrawing (P : State → Prop) (s : State) (r : Result) : Prop :=
  (∃ u, Drawn s u ∧ P u ∧ r = .next (u.withStatus .ok)) ∨ endsInRefresh P s r

/-- A property of the state that the sending of records does not touch. -/
def sendStable (P : State → Prop) : Prop := ∀ u rs t d, P u → P (u.afterSends rs t d)

/-- The refresh step, said with `Drawn`. -/
theorem flushRows_ends {P : State → Prop} (hP : sendStable P) {y n : Nat} {s : State}
    (hn : y + n ≤ s.height) (hs : P s) :
    (∃ u, Drawn s u ∧ P u ∧ flushRows y n s = .going u) ∨
    (∃ r, endsInRefresh P s r ∧ flushRows y n s = .ended r) := by
  have hrows : ∀ k, ∀ r ∈ (List.range' y n).take k, r < s.height := by
    intro k r hr
    have := List.mem_range'.mp (List.mem_of_mem_take hr)
    omega
  rcases flushEach_cases (List.range' y n) s with ⟨t, d, ht, h⟩ | ⟨k, t, d, -, ht, h⟩ | ⟨hn, h⟩
  · have hr : ∀ r ∈ List.range' y n, r < s.height := fun r hr => by
      have := List.mem_range'.mp hr
      omega
    exact .inl ⟨_, .afterSends d hr ht, hP _ _ _ _ hs, h⟩
  · rcases h with h | h
    · exact .inr ⟨_, .inl ⟨_, .afterSends d (hrows _) ht, hP _ _ _ _ hs, rfl⟩, h⟩
    · exact .inr ⟨_, .inr (.inl ⟨_, .afterSends d (hrows _) ht, hP _ _ _ _ hs, rfl⟩), h⟩
  · exact .inr ⟨_, .inr (.inr ⟨hn, rfl⟩), h⟩

theorem endsInRefresh.of_drawn {P : State → Prop} {s v : State} {r : Result} (hv : Drawn s v)
    (h : endsInRefresh P v r) : endsInRefresh P s r := by
  rcases h with ⟨u, hu, hp, e⟩ | ⟨u, hu, hp, e⟩ | ⟨hn, e⟩
  · exact .inl ⟨u, hv.trans hu, hp, e⟩
  · exact .inr (.inl ⟨u, hv.trans hu, hp, e⟩)
  · exact .inr (.inr ⟨hv.took.subset hn, e⟩)

/-- A write of `FB` and the refresh of some rows: CLEAR, WRREG and DCHAR after their checks. -/
theorem finish_flushRows {P : State → Prop} (hP : sendStable P) {y n : Nat} {s : State} {m : Memory}
    (hn : y + n ≤ s.height) (hs : P (s.withFb m)) :
    endsDrawing P s (finish (flushRows y n (s.withFb m))) := by
  have hd := Drawn.withFb s m
  rcases flushRows_ends hP (s := s.withFb m) (by simpa using hn) hs with ⟨u, hu, hp, h⟩ | ⟨r, hr, h⟩
  · exact .inl ⟨u, hd.trans hu, hp, by rw [h]; rfl⟩
  · exact .inr (by rw [h]; exact hr.of_drawn hd)

/-- Everything CLEAR can do. -/
theorem execClear_cases (value : Bool) (s : State) :
    (s.configured = false ∧ execClear value s = raise .notConfigured s) ∨
    (s.configured = true ∧ endsDrawing
      (fun u => u.fb = Memory.fill Config.fbBlank s.fb s.fbSize (if value then 0xFF else 0x00)) s
      (execClear value s)) := by
  unfold execClear
  cases hc : s.configured with
  | false => exact .inl ⟨rfl, rfl⟩
  | true => exact .inr ⟨rfl, finish_flushRows (fun _ _ _ _ h => h) (by simp) rfl⟩

/-- Everything WRREG can do. -/
theorem execWrreg_cases (x y width height : Nat) (s : State) :
    (∃ e, (e = .notConfigured ∨ e = .operandRange ∨ e = .outOfBounds) ∧
      execWrreg x y width height s = raise e s) ∨
    ((width = 0 ∨ height = 0) ∧ execWrreg x y width height s = complete s) ∨
    (0 < width ∧ 0 < height ∧ x + width ≤ s.width ∧ y + height ≤ s.height ∧ endsDrawing
      (fun u => u.fb = mergeRegion s.bpr x y width height s.opbByte s.fb) s
      (execWrreg x y width height s)) := by
  unfold execWrreg
  split
  · exact .inl ⟨_, .inl rfl, rfl⟩
  split
  · exact .inl ⟨_, .inr (.inl rfl), rfl⟩
  split
  · exact .inl ⟨_, .inr (.inr rfl), rfl⟩
  split
  · rename_i _ _ hb hpos
    exact .inr (.inr ⟨hpos.1, hpos.2, by omega, by omega,
      finish_flushRows (fun _ _ _ _ h => h) (by omega) rfl⟩)
  · exact .inr (.inl ⟨by omega, rfl⟩)

/-- Everything DCHAR can do. -/
theorem execDchar_cases (x y c font : Nat) (mode : Mode) (s : State) :
    (∃ e, (e = .notConfigured ∨ e = .operandRange ∨ e = .outOfBounds) ∧
      execDchar x y c font mode s = raise e s) ∨
    (∃ f, fontOf s.params.fonts font = some f ∧ fontWf f = false ∧
      execDchar x y c font mode s = .refused (.fontOutsideModel font)) ∨
    (∃ f, fontOf s.params.fonts font = some f ∧ fontWf f = true ∧
      x + f.fw ≤ s.width ∧ y + f.fh ≤ s.height ∧
      endsDrawing (fun u => u.fb = (s.withGlyph f c mode x y).fb) s (execDchar x y c font mode s)) := by
  unfold execDchar
  split
  · exact .inl ⟨_, .inl rfl, rfl⟩
  split
  · exact .inl ⟨_, .inr (.inl rfl), rfl⟩
  split
  · rename_i f hf hwf
    exact .inr (.inl ⟨f, hf, hwf, rfl⟩)
  split
  · exact .inl ⟨_, .inr (.inr rfl), rfl⟩
  · rename_i f hf hwf hb
    exact .inr (.inr ⟨f, hf, by simpa using hwf, by omega, by omega,
      finish_flushRows (fun _ _ _ _ h => h) (by omega) rfl⟩)

/-- Everything DSTR can do, for a property `P` that each of its glyphs keeps. The vertical check can only fail
at the first glyph, before anything is drawn. -/
theorem execDstr_cases {P : State → Prop} (hP : sendStable P) (x y len spacing font : Nat) (mode : Mode)
    (s : State) (hs : P s)
    (keep : ∀ f c cur u, fontOf s.params.fonts font = some f → fontWf f = true → Drawn s u → P u →
      x ≤ cur → cur + f.fw ≤ s.width → y + f.fh ≤ s.height → P (u.withGlyph f c mode cur y)) :
    (∃ e, (e = .notConfigured ∨ e = .operandRange ∨ e = .outOfBounds) ∧
      execDstr x y len spacing font mode s = raise e s) ∨
    (∃ f, fontOf s.params.fonts font = some f ∧ fontWf f = false ∧
      execDstr x y len spacing font mode s = .refused (.fontOutsideModel font)) ∨
    (∃ u n, Drawn s u ∧ P u ∧ execDstr x y len spacing font mode s = complete (u.withResult 0 n)) ∨
    endsInRefresh P s (execDstr x y len spacing font mode s) := by
  unfold execDstr
  split
  · exact .inl ⟨_, .inl rfl, rfl⟩
  split
  · exact .inl ⟨_, .inr (.inl rfl), rfl⟩
  split
  · exact .inl ⟨_, .inr (.inl rfl), rfl⟩
  split
  · rename_i f hf _ hwf
    exact .inr (.inl ⟨f, hf, hwf, rfl⟩)
  rename_i f hf _ hwf
  replace hwf : fontWf f = true := by simpa using hwf
  have run : ∀ (chars : List Nat) (cur n : Nat) (v : State), Drawn s v → P v → x ≤ cur →
      y + f.fh ≤ s.height →
      (∃ u m, Drawn s u ∧ P u ∧
        drawString f mode spacing y chars cur n v = .going (u.withResult 0 m)) ∨
      (∃ r, endsInRefresh P s r ∧ drawString f mode spacing y chars cur n v = .ended r) := by
    intro chars
    induction chars with
    | nil => exact fun cur n v hv hp _ _ => .inl ⟨v, n, hv, hp, rfl⟩
    | cons c rest ih =>
      intro cur n v hv hp hcur hy
      obtain ⟨gw, gh, -⟩ := hv.geometry
      by_cases hw : cur + f.fw > v.width
      · exact .inl ⟨v, n, hv, hp, by simp [drawString, hw]⟩
      have hd : Drawn s (v.withGlyph f c mode cur y) := hv.trans (.withFb _ _)
      have hg : P (v.withGlyph f c mode cur y) := keep f c cur v hf hwf hv hp hcur (by omega) hy
      have hyv : ¬ y + f.fh > v.height := by omega
      rcases flushRows_ends hP (y := y) (n := f.fh) (s := v.withGlyph f c mode cur y)
        (by rw [hd.geometry.2.1]; exact hy) hg with ⟨u, hu, hpu, h⟩ | ⟨r, hr, h⟩
      · have := ih (cur + f.fw + spacing) (n + 1) u (hd.trans hu) hpu (by omega) hy
        simpa [drawString, hw, hyv, drawGlyph_eq, h] using this
      · exact .inr ⟨r, hr.of_drawn hd, by simp [drawString, hw, hyv, drawGlyph_eq, h]⟩
  by_cases hy : y + f.fh ≤ s.height
  · rcases run _ x 0 s (.refl s) hs le_rfl hy with ⟨u, m, hu, hp, h⟩ | ⟨r, hr, h⟩
    · exact .inr (.inr (.inl ⟨u, m, hu, hp, by rw [h]; rfl⟩))
    · exact .inr (.inr (.inr (by rw [h]; exact hr)))
  · cases (List.range len).map fun a => (s.opbByte a).toNat with
    | nil => exact .inr (.inr (.inl ⟨s, 0, .refl s, hs, rfl⟩))
    | cons c rest =>
      by_cases hw : x + f.fw > s.width
      · exact .inr (.inr (.inl ⟨s, 0, .refl s, hs, by simp [drawString, hw, finish]⟩))
      · exact .inl ⟨_, .inr (.inr rfl), by simp [drawString, hw, show y + f.fh > s.height by omega, finish]⟩

/-- Everything INIT can do. -/
theorem execInit_cases (width height : Nat) (variant : Variant) (s : State) :
    (execInit width height variant s = raise .badConfig s) ∨
    (s.configured = false ∧ execInit width height variant s = raise .allocFailure s.withFault) ∨
    (s.configured = false ∧ 0 < width ∧ 0 < height ∧ (variant = .interleaved → height % 2 = 0) ∧
      height * ceil8 width ≤ s.params.fbCapacity ∧
      execInit width height variant s = complete ((s.withConfig width height variant).withFb
        (Memory.fill Config.fbBlank s.fb (height * ceil8 width) 0x00))) := by
  unfold execInit
  split
  · exact .inl rfl
  rename_i hc
  replace hc : s.configured = false := by simpa using hc
  split
  · exact .inl rfl
  split
  · exact .inl rfl
  split
  · exact .inr (.inl ⟨hc, rfl⟩)
  · rename_i h0 hodd hcap
    exact .inr (.inr ⟨hc, by omega, by omega, fun h => by
      have : ¬ height % 2 = 1 := fun h' => hodd ⟨h, h'⟩
      omega, by omega, rfl⟩)

/-- Everything GETPX, XLATE and PAGEOF can do. -/
theorem execGetpx_cases (x y : Nat) (s : State) :
    (∃ e, (e = .notConfigured ∨ e = .outOfBounds) ∧ execGetpx x y s = raise e s) ∨
    (s.configured = true ∧ x < s.width ∧ y < s.height ∧
      execGetpx x y s = complete (s.withResult 0 (s.pix x y).toNat)) := by
  unfold execGetpx
  split
  · exact .inl ⟨_, .inl rfl, rfl⟩
  split
  · exact .inl ⟨_, .inr rfl, rfl⟩
  · rename_i hc hb
    exact .inr ⟨by simpa using hc, by omega, by omega, rfl⟩

theorem execXlate_cases (row : Nat) (s : State) :
    (∃ e, (e = .notConfigured ∨ e = .outOfBounds) ∧ execXlate row s = raise e s) ∨
    (s.configured = true ∧ row < s.height ∧
      execXlate row s = complete (s.withResult 0 (toPhysical s.cfgVariant s.height row))) := by
  unfold execXlate
  split
  · exact .inl ⟨_, .inl rfl, rfl⟩
  split
  · exact .inl ⟨_, .inr rfl, rfl⟩
  · rename_i hc hb
    exact .inr ⟨by simpa using hc, by omega, rfl⟩

theorem execPageof_cases (y : Nat) (s : State) :
    (∃ e, (e = .notConfigured ∨ e = .outOfBounds) ∧ execPageof y s = raise e s) ∨
    (s.configured = true ∧ y < s.height ∧
      execPageof y s = complete (s.withResult (pageIndex y) (pageBit y))) := by
  unfold execPageof
  split
  · exact .inl ⟨_, .inl rfl, rfl⟩
  split
  · exact .inl ⟨_, .inr rfl, rfl⟩
  · rename_i hc hb
    exact .inr ⟨by simpa using hc, by omega, rfl⟩

/-- How a command that answers a next state `t` has ended, `P` being a property that drawing keeps. -/
inductive Ended (P : State → Prop) (s t : State) : Instr → Prop where
  /-- Rejected: only `STATUS` is written. -/
  | rejected {i} (e : Status) (he : e ≠ .ok ∧ e ≠ .transportFailure ∧ e ≠ .unsupportedCharacter)
      (ht : t = s.withStatus e) : Ended P s t i
  /-- INIT met the fatal fault. -/
  | allocFailed {w h v} (hc : s.configured = false) (ht : t = s.withFault.withStatus .allocFailure) :
      Ended P s t (.init w h v)
  /-- INIT built the raster. -/
  | constructed {w h v} (hc : s.configured = false) (hw : 0 < w) (hh : 0 < h)
      (hodd : v = .interleaved → h % 2 = 0) (hcap : h * ceil8 w ≤ s.params.fbCapacity)
      (ht : t = ((s.withConfig w h v).withFb
        (Memory.fill Config.fbBlank s.fb (h * ceil8 w) 0x00)).withStatus .ok) : Ended P s t (.init w h v)
  /-- GETPX, XLATE or PAGEOF wrote `RESULT`. -/
  | answered {i} (b a : Nat) (hi : (∃ x y, i = .getpx x y) ∨ (∃ row, i = .xlate row) ∨ ∃ y, i = .pageof y)
      (ht : t = (s.withResult b a).withStatus .ok) : Ended P s t i
  /-- CLEAR, WRREG or DCHAR completed. -/
  | drawn {i} (u : State) (hu : Drawn s u) (hp : P u)
      (hi : (∃ v, i = .clear v) ∨ (∃ x y w h, i = .wrreg x y w h) ∨ ∃ x y c f m, i = .dchar x y c f m)
      (ht : t = u.withStatus .ok) : Ended P s t i
  /-- DSTR completed. -/
  | drawnString {x y l sp f m} (u : State) (n : Nat) (hu : Drawn s u) (hp : P u)
      (ht : t = (u.withResult 0 n).withStatus .ok) : Ended P s t (.dstr x y l sp f m)
  /-- A SEND record failed. -/
  | failed {i} (u : State) (hu : Drawn s u) (hp : P u)
      (hi : (∃ v, i = .clear v) ∨ (∃ x y w h, i = .wrreg x y w h) ∨ (∃ x y c f m, i = .dchar x y c f m) ∨
        ∃ x y l sp f m, i = .dstr x y l sp f m)
      (ht : t = u.withStatus .transportFailure) : Ended P s t i
  /-- The engine was reset at a SEND record. -/
  | abandoned {i} (u : State) (hu : Drawn s u) (ht : t = u.afterReset)
      (hi : (∃ v, i = .clear v) ∨ (∃ x y w h, i = .wrreg x y w h) ∨ (∃ x y c f m, i = .dchar x y c f m) ∨
        ∃ x y l sp f m, i = .dstr x y l sp f m) : Ended P s t i

/-- Everything a command that answers a next state can have done. -/
theorem exec_next {P : State → Prop} (hP : sendStable P) {i : Instr} {s t : State} (h : exec i s = .next t)
    (hs : P s)
    (clear : ∀ v, i = .clear v →
      P (s.withFb (Memory.fill Config.fbBlank s.fb s.fbSize (if v then 0xFF else 0x00))))
    (wrreg : ∀ x y w h, i = .wrreg x y w h → 0 < w → 0 < h → x + w ≤ s.width → y + h ≤ s.height →
      P (s.withFb (mergeRegion s.bpr x y w h s.opbByte s.fb)))
    (dchar : ∀ x y c font m f, i = .dchar x y c font m → fontOf s.params.fonts font = some f →
      fontWf f = true → x + f.fw ≤ s.width → y + f.fh ≤ s.height → P (s.withGlyph f c m x y))
    (dstr : ∀ x y l sp font m f c cur u, i = .dstr x y l sp font m → fontOf s.params.fonts font = some f →
      fontWf f = true → Drawn s u → P u → x ≤ cur → cur + f.fw ≤ s.width → y + f.fh ≤ s.height →
      P (u.withGlyph f c m cur y)) :
    Ended P s t i := by
  have reject : ∀ {e}, exec i s = raise e s → e ≠ .ok → e ≠ .transportFailure →
      e ≠ .unsupportedCharacter → Ended P s t i := by
    intro e h' h1 h2 h3
    rw [h] at h'
    exact .rejected e ⟨h1, h2, h3⟩ (Host.Outcome.next.inj h')
  have refresh : ((∃ v, i = .clear v) ∨ (∃ x y w h, i = .wrreg x y w h) ∨
      (∃ x y c f m, i = .dchar x y c f m) ∨ ∃ x y l sp f m, i = .dstr x y l sp f m) →
      endsInRefresh P s (exec i s) → Ended P s t i := by
    intro hi he
    rw [h] at he
    rcases he with ⟨u, hu, hp, e⟩ | ⟨u, hu, hp, e⟩ | ⟨-, e⟩
    · exact .failed u hu hp hi (Host.Outcome.next.inj e)
    · exact .abandoned u hu (Host.Outcome.next.inj e) hi
    · cases e
  have draw : ((∃ v, i = .clear v) ∨ (∃ x y w h, i = .wrreg x y w h) ∨ ∃ x y c f m, i = .dchar x y c f m) →
      endsDrawing P s (exec i s) → Ended P s t i := by
    intro hi he
    rcases he with ⟨u, hu, hp, e⟩ | he
    · rw [h] at e
      exact .drawn u hu hp hi (Host.Outcome.next.inj e)
    · exact refresh (hi.imp_right (.imp_right .inl)) he
  have only : ∀ {Q : State → Prop} {r}, (∀ u, Drawn s u → Q u → P u) → endsDrawing Q s r →
      endsDrawing P s r := by
    intro Q r hq he
    rcases he with ⟨u, hu, hp, e⟩ | ⟨u, hu, hp, e⟩ | ⟨u, hu, hp, e⟩ | he
    · exact .inl ⟨u, hu, hq u hu hp, e⟩
    · exact .inr (.inl ⟨u, hu, hq u hu hp, e⟩)
    · exact .inr (.inr (.inl ⟨u, hu, hq u hu hp, e⟩))
    · exact .inr (.inr (.inr he))
  have fromFb : ∀ {m : Memory}, P (s.withFb m) → ∀ u, Drawn s u → u.fb = m → P u := by
    intro m hm u hu hf
    obtain ⟨new, hn, -⟩ := hu.sent
    have same := hu.same
    rw [hf, hn] at same
    have : u = (s.withFb m).afterSends new u.transport u.ackDraws :=
      same.trans (by simp [State.afterSends, State.withFb])
    rw [this]
    exact hP _ _ _ _ hm
  cases i with
  | init w hh v =>
    rcases execInit_cases w hh v s with e | ⟨hc, e⟩ | ⟨hc, hw, hh', hodd, hcap, e⟩
    · exact reject e (by simp) (by simp) (by simp)
    · exact .allocFailed hc (Host.Outcome.next.inj (h.symm.trans e))
    · exact .constructed hc hw hh' hodd hcap (Host.Outcome.next.inj (h.symm.trans e))
  | clear v =>
    rcases execClear_cases v s with ⟨-, e⟩ | ⟨-, e⟩
    · exact reject e (by simp) (by simp) (by simp)
    · exact draw (.inl ⟨v, rfl⟩) (only (fromFb (clear v rfl)) e)
  | getpx x y =>
    rcases execGetpx_cases x y s with ⟨_, rfl | rfl, e⟩ | ⟨-, -, -, e⟩
    · exact reject e (by simp) (by simp) (by simp)
    · exact reject e (by simp) (by simp) (by simp)
    · exact .answered _ _ (.inl ⟨x, y, rfl⟩) (Host.Outcome.next.inj (h.symm.trans e))
  | wrreg x y w hh =>
    rcases execWrreg_cases x y w hh s with ⟨_, rfl | rfl | rfl, e⟩ | ⟨-, e⟩ | ⟨hw, hh', hx, hy, e⟩
    · exact reject e (by simp) (by simp) (by simp)
    · exact reject e (by simp) (by simp) (by simp)
    · exact reject e (by simp) (by simp) (by simp)
    · exact .drawn s (.refl s) hs (.inr (.inl ⟨x, y, w, hh, rfl⟩)) (Host.Outcome.next.inj (h.symm.trans e))
    · exact draw (.inr (.inl ⟨x, y, w, hh, rfl⟩)) (only (fromFb (wrreg x y w hh rfl hw hh' hx hy)) e)
  | dchar x y c font m =>
    rcases execDchar_cases x y c font m s with ⟨_, rfl | rfl | rfl, e⟩ | ⟨f, -, -, e⟩ | ⟨f, hf, hwf, hx, hy, e⟩
    · exact reject e (by simp) (by simp) (by simp)
    · exact reject e (by simp) (by simp) (by simp)
    · exact reject e (by simp) (by simp) (by simp)
    · exact absurd (h.symm.trans e) (by simp)
    · exact draw (.inr (.inr ⟨x, y, c, font, m, rfl⟩))
        (only (fromFb (dchar x y c font m f rfl hf hwf hx hy)) e)
  | dstr x y l sp font m =>
    rcases execDstr_cases hP x y l sp font m s hs (fun f c cur u hf hwf hu hp hcur hx hy =>
        dstr x y l sp font m f c cur u rfl hf hwf hu hp hcur hx hy)
      with ⟨_, rfl | rfl | rfl, e⟩ | ⟨f, -, -, e⟩ | ⟨u, n, hu, hp, e⟩ | e
    · exact reject e (by simp) (by simp) (by simp)
    · exact reject e (by simp) (by simp) (by simp)
    · exact reject e (by simp) (by simp) (by simp)
    · exact absurd (h.symm.trans e) (by simp)
    · exact .drawnString u n hu hp (Host.Outcome.next.inj (h.symm.trans e))
    · exact refresh (.inr (.inr (.inr ⟨x, y, l, sp, font, m, rfl⟩))) e
  | xlate row =>
    rcases execXlate_cases row s with ⟨_, rfl | rfl, e⟩ | ⟨-, -, e⟩
    · exact reject e (by simp) (by simp) (by simp)
    · exact reject e (by simp) (by simp) (by simp)
    · exact .answered _ _ (.inr (.inl ⟨row, rfl⟩)) (Host.Outcome.next.inj (h.symm.trans e))
  | pageof y =>
    rcases execPageof_cases y s with ⟨_, rfl | rfl, e⟩ | ⟨-, -, e⟩
    · exact reject e (by simp) (by simp) (by simp)
    · exact reject e (by simp) (by simp) (by simp)
    · exact .answered _ _ (.inr (.inr ⟨y, rfl⟩)) (Host.Outcome.next.inj (h.symm.trans e))

/-- The same, without a property to keep. -/
theorem exec_ended {i : Instr} {s t : State} (h : exec i s = .next t) : Ended (fun _ => True) s t i :=
  exec_next (fun _ _ _ _ h => h) h trivial (fun _ _ => trivial) (fun _ _ _ _ _ _ _ _ _ => trivial)
    (fun _ _ _ _ _ _ _ _ _ _ _ => trivial) (fun _ _ _ _ _ _ _ _ _ _ _ _ _ _ _ _ _ _ => trivial)

end Sys2Proof.Machine
end

