-- ==== Sys2Proof/Laws/Decode.lean ====
section
/-! SUPPORT. The command word and its fields: each is the other's inverse, and what the decoder's steps accept. -/

namespace Sys2Proof

/-- Every field is below its width (R82). -/
def Fields.fit (f : Fields) : Prop :=
  f.op < 16 ∧ f.font < 4 ∧ f.mode < 4 ∧ f.ch < 256 ∧ f.h < 4096 ∧ f.w < 4096 ∧ f.y < 4096 ∧ f.x < 4096

theorem fieldsOf_fit (cw : CmdWord) : (fieldsOf cw).fit := by
  simp only [fieldsOf, Fields.fit]; omega

/-- Fields that fit are read back from their word (R81). -/
theorem fieldsOf_wordOf {f : Fields} (h : f.fit) : fieldsOf (wordOf f) = f := by
  obtain ⟨op, font, mode, ch, h', w, y, x⟩ := f
  simp only [Fields.fit] at h
  simp only [fieldsOf, wordOf, BitVec.toNat_ofNat, Fields.mk.injEq]
  omega

/-- A word is the word of its fields (R81). -/
theorem wordOf_fieldsOf (cw : CmdWord) : wordOf (fieldsOf cw) = cw := by
  apply BitVec.eq_of_toNat_eq
  have h := cw.isLt
  simp only [fieldsOf, wordOf, BitVec.toNat_ofNat]
  omega

/-- The fields of a well-formed command fit. -/
theorem fieldsOfInstr_fit {i : Instr} (hi : i.wf = true) : (fieldsOfInstr i).fit := by
  cases i with
  | init w h v =>
    cases v <;> simp_all [Instr.wf, fieldsOfInstr, Fields.fit, fitsCoord, variantField]
  | clear v => cases v <;> simp [fieldsOfInstr, Fields.fit]
  | dchar x y c f m =>
    cases m <;> simp_all [Instr.wf, fieldsOfInstr, Fields.fit, fitsCoord, fitsChar, fitsFont, modeField]
  | dstr x y l s f m =>
    cases m <;> simp_all [Instr.wf, fieldsOfInstr, Fields.fit, fitsCoord, fitsFont, modeField]
  | _ => simp_all [Instr.wf, fieldsOfInstr, Fields.fit, fitsCoord]

theorem legalIf_ok {α : Type} {l : List Nat} {bad : Illegal} {e : Option α} {mk : α → Instr} {i : Instr} :
    legalIf l bad e mk = .ok i ↔ (∀ n ∈ l, n = 0) ∧ ∃ a, e = some a ∧ mk a = i := by
  unfold legalIf
  by_cases h : (l.all (· == 0)) = true
  · have hl : ∀ n ∈ l, n = 0 := by simpa using h
    rw [if_pos h]
    cases e with
    | none => simp
    | some a => simp only [Except.ok.injEq, Option.some.injEq, exists_eq_left', iff_and_self]; exact fun _ => hl
  · have hl : ¬ ∀ n ∈ l, n = 0 := by simpa using h
    rw [if_neg h]
    simp [hl]

theorem variantOfField_some {n : Nat} {v : Variant} : variantOfField n = some v ↔ n = variantField v := by
  rcases n with _ | _ | n <;> cases v <;> simp [variantOfField, variantField]

theorem valueOfField_some {n : Nat} {v : Bool} : valueOfField n = some v ↔ n = v.toNat := by
  rcases n with _ | _ | n <;> cases v <;> simp [valueOfField]

theorem modeOfField_some {n : Nat} {m : Mode} : modeOfField n = some m ↔ n = modeField m := by
  rcases n with _ | _ | _ | n <;> cases m <;> simp [modeOfField, modeField]

end Sys2Proof
end

