-- ==== Sys2Proof/Laws/PerInstr.lean ====
section
/-! SUPPORT. What is said of every command by name, one lemma a constructor: the fields of its word (R81, R84).
And that the reset state's memories are canonical. -/

namespace Sys2Proof.Laws.WordFields

open Sys2Proof

/-- The word of a well-formed command has the fields of the command's format: its opcode, its operands, and 0 in
every reserved field. -/
def Statement (i : Instr) : Prop := i.wf = true → fieldsOf (encode i) = fieldsOfInstr i

/-- The one proof, shared by the constructors. -/
theorem all (i : Instr) : Statement i := fun h => fieldsOf_wordOf (fieldsOfInstr_fit h)

theorem init (width height : Nat) (variant : Variant) : Statement (.init width height variant) := all _
theorem clear (value : Bool) : Statement (.clear value) := all _
theorem getpx (x y : Nat) : Statement (.getpx x y) := all _
theorem wrreg (x y width height : Nat) : Statement (.wrreg x y width height) := all _
theorem dchar (x y c font : Nat) (mode : Mode) : Statement (.dchar x y c font mode) := all _
theorem dstr (x y len spacing font : Nat) (mode : Mode) : Statement (.dstr x y len spacing font mode) := all _
theorem xlate (row : Nat) : Statement (.xlate row) := all _
theorem pageof (y : Nat) : Statement (.pageof y) := all _

end Sys2Proof.Laws.WordFields

namespace Sys2Proof.Machine

/-- Both memories of the reset state are canonical: nothing is listed. -/
theorem reset_wf : Memory.wf Config.fbBlank State.reset.fb ∧ Memory.wf Config.opbBlank State.reset.opb := by
  decide

end Sys2Proof.Machine
end

