-- ==== Sys2Proof/Laws/Strings.lean ====
section
/-! SUPPORT. What the drawing commands are once their checks have passed, how a string's glyphs count, and that
drawing does not depend on `STATUS`: a DSTR can then be read as DCHARs in turn. -/

namespace Sys2Proof.Machine

theorem fontWf_pos {f : Font} (h : fontWf f = true) : 0 < f.fw ∧ 0 < f.fh := by
  simp only [fontWf, Bool.and_eq_true, decide_eq_true_eq] at h
  omega

theorem take_range' {y n k : Nat} (h : k ≤ n) : (List.range' y n).take k = List.range' y k := by
  apply List.ext_getElem (by simp [h])
  simp

/-- WRREG of a rectangle that is not empty, past its checks. -/
theorem exec_wrreg_inside {s : State} {x y w h : Nat} (hc : s.configured = true)
    (hcap : h * ceil8 w ≤ s.params.opbCapacity) (hx : x + w ≤ s.width) (hy : y + h ≤ s.height) (hw : 0 < w)
    (hh : 0 < h) : exec (.wrreg x y w h) s
      = finish (flushRows y h (s.withFb (mergeRegion s.bpr x y w h s.opbByte s.fb))) := by
  simp only [exec, execWrreg]
  rw [if_neg (by simp [hc]), if_neg (by omega), if_neg (by omega), if_pos ⟨hw, hh⟩]

/-- DCHAR past its checks. -/
theorem exec_dchar_inside {s : State} {x y c font : Nat} {mode : Mode} {f : Font} (hc : s.configured = true)
    (hf : fontOf s.params.fonts font = some f) (hwf : fontWf f = true) (hx : x + f.fw ≤ s.width)
    (hy : y + f.fh ≤ s.height) :
    exec (.dchar x y c font mode) s = finish (flushRows y f.fh (s.withGlyph f c mode x y)) := by
  simp only [exec, execDchar, hf, drawGlyph_eq]
  rw [if_neg (by simp [hc]), if_neg (by simp [hwf]), if_neg (by omega)]

/-- DSTR past its checks. -/
theorem exec_dstr_inside {s : State} {x y len sp font : Nat} {mode : Mode} {f : Font} (hc : s.configured = true)
    (hf : fontOf s.params.fonts font = some f) (hwf : fontWf f = true) (hlen : len ≤ s.params.opbCapacity) :
    exec (.dstr x y len sp font mode) s
      = finish (drawString f mode sp y ((List.range len).map fun a => (s.opbByte a).toNat) x 0 s) := by
  simp only [exec, execDstr, hf]
  rw [if_neg (by simp [hc]), if_neg (by omega), if_neg (by simp [hwf])]

/-- The next glyph crosses the right edge: none fits. -/
theorem glyphsThatFit_zero {W fw sp cur len : Nat} (h : W < cur + fw) : glyphsThatFit W fw sp cur len = 0 := by
  rw [glyphsThatFit, if_neg (by omega)]

/-- The next glyph fits: it and those that fit after it. -/
theorem glyphsThatFit_succ {W fw sp cur len : Nat} (hf : 0 < fw) (h : cur + fw ≤ W) :
    glyphsThatFit W fw sp cur (len + 1) = glyphsThatFit W fw sp (cur + (fw + sp)) len + 1 := by
  rw [glyphsThatFit, if_pos h, glyphsThatFit]
  split
  · have : (W - cur - fw) / (fw + sp) = (W - (cur + (fw + sp)) - fw) / (fw + sp) + 1 := by
      rw [← Nat.add_div_right _ (by omega)]
      congr 1
      omega
    omega
  · have : (W - cur - fw) / (fw + sp) = 0 := Nat.div_eq_of_lt (by omega)
    omega

/-- No more glyphs fit than there are columns. -/
theorem glyphsThatFit_le {W fw sp cur len : Nat} (hf : 0 < fw) : glyphsThatFit W fw sp cur len ≤ W := by
  rw [glyphsThatFit]
  split
  · have : (W - cur - fw) / (fw + sp) ≤ W - cur - fw := Nat.div_le_self _ _
    omega
  · omega

/-- The refresh step does not read `STATUS`, and a step that ends writes it anew. -/
theorem flushEach_withStatus (rows : List Nat) (s : State) (e : Status) :
    (∃ u, flushEach rows s = .going u ∧ flushEach rows (s.withStatus e) = .going (u.withStatus e)) ∨
    (∃ r, flushEach rows s = .ended r ∧ flushEach rows (s.withStatus e) = .ended r) := by
  induction rows generalizing s with
  | nil => exact .inl ⟨s, rfl, rfl⟩
  | cons r rest ih =>
    rcases send_cases (rowRecord s r) s with ⟨a, t, hs, h⟩ | ⟨a, hs, h⟩
    · have h' : send (rowRecord (s.withStatus e) r) (s.withStatus e)
          = (a, (s.afterSends [rowRecord s r] t s.ackDraws).withStatus e) := send_listed hs
      cases a with
      | ack a =>
        cases a with
        | ok => simpa only [flushEach, h, h'] using ih (s.afterSends [rowRecord s r] t s.ackDraws)
        | fail => exact .inr ⟨_, by rw [flushEach, h], by rw [flushEach, h']; rfl⟩
      | reset => exact .inr ⟨_, by rw [flushEach, h], by rw [flushEach, h']; rfl⟩
      | never => exact .inr ⟨_, by rw [flushEach, h], by rw [flushEach, h']⟩
    · have h' : send (rowRecord (s.withStatus e) r) (s.withStatus e)
          = (.ack a, (s.afterSends [rowRecord s r] [] (s.ackDraws + 1)).withStatus e) := by
        have ha : Config.freeAck s.ackDraws = a := by
          simpa [send, takeEvent, hs] using congrArg Prod.fst h
        simp [send, takeEvent, hs, ← ha, State.withSend, State.withDraw, State.afterSends, State.withStatus]
        rfl
      cases a with
      | ok => simpa only [flushEach, h, h'] using ih (s.afterSends [rowRecord s r] [] (s.ackDraws + 1))
      | fail => exact .inr ⟨_, by rw [flushEach, h], by rw [flushEach, h']; rfl⟩

/-- A string does not read `STATUS` either. -/
theorem finish_drawString_withStatus (f : Font) (mode : Mode) (sp y : Nat) (chars : List Nat) (cur n : Nat)
    (s : State) (e : Status) :
    finish (drawString f mode sp y chars cur n (s.withStatus e)) = finish (drawString f mode sp y chars cur n s) := by
  induction chars generalizing cur n s with
  | nil => rfl
  | cons c rest ih =>
    rw [drawString, drawString]
    by_cases hw : cur + f.fw > s.width
    · rw [if_pos hw, if_pos (show cur + f.fw > (s.withStatus e).width from hw)]
      rfl
    rw [if_neg hw, if_neg (show ¬ cur + f.fw > (s.withStatus e).width from hw)]
    by_cases hh : y + f.fh > s.height
    · rw [if_pos hh, if_pos (show y + f.fh > (s.withStatus e).height from hh)]
      rfl
    rw [if_neg hh, if_neg (show ¬ y + f.fh > (s.withStatus e).height from hh)]
    have hg : (s.withStatus e).withGlyph f c mode cur y = (s.withGlyph f c mode cur y).withStatus e := rfl
    rw [drawGlyph_eq, drawGlyph_eq, hg]
    rcases flushEach_withStatus (List.range' y f.fh) (s.withGlyph f c mode cur y) e with ⟨u, h, h'⟩ | ⟨r, h, h'⟩
    · simp only [flushRows, h, h']
      exact ih _ _ u
    · simp only [flushRows, h, h']

end Sys2Proof.Machine
end

