-- ==== Sys2Proof/Laws/Records.lean ====
section
/-! SUPPORT. What the records of a command show: the raster that its merge has left, whatever the transport answers.
The raster of a string's glyphs is a fold that no answer enters. -/

namespace Sys2Proof.Machine

/-- The glyphs of the listed characters, merged one after another, without their refreshes. -/
def State.withGlyphs (s : State) (f : Font) (mode : Mode) (advance y : Nat) : List Nat → Nat → State
  | [], _ => s
  | c :: rest, cur => (s.withGlyph f c mode cur y).withGlyphs f mode advance y rest (cur + advance)

/-- Glyphs keep the raster's geometry. -/
theorem withGlyphs_geometry (f : Font) (mode : Mode) (advance y : Nat) (chars : List Nat) (cur : Nat) (s : State) :
    (s.withGlyphs f mode advance y chars cur).bpr = s.bpr ∧
    (s.withGlyphs f mode advance y chars cur).cfgVariant = s.cfgVariant ∧
    (s.withGlyphs f mode advance y chars cur).height = s.height := by
  induction chars generalizing s cur with
  | nil => exact ⟨rfl, rfl, rfl⟩
  | cons c rest ih => exact ih (cur + advance) (s.withGlyph f c mode cur y)

/-- Sending does not enter the glyphs. -/
theorem withGlyphs_afterSends (f : Font) (mode : Mode) (advance y : Nat) (chars : List Nat) (cur : Nat) (s : State)
    (rs : List SendRecord) (t : List TransportEvent) (d : Nat) :
    (s.afterSends rs t d).withGlyphs f mode advance y chars cur
      = (s.withGlyphs f mode advance y chars cur).afterSends rs t d := by
  induction chars generalizing s cur with
  | nil => rfl
  | cons c rest ih => exact ih (cur + advance) (s.withGlyph f c mode cur y)

/-- Neither do the answers still to come. -/
theorem withGlyphs_withTransport (f : Font) (mode : Mode) (advance y : Nat) (chars : List Nat) (cur : Nat) (s : State)
    (t : List TransportEvent) :
    (s.withTransport t).withGlyphs f mode advance y chars cur
      = (s.withGlyphs f mode advance y chars cur).withTransport t := by
  induction chars generalizing s cur with
  | nil => rfl
  | cons c rest ih => exact ih (cur + advance) (s.withGlyph f c mode cur y)

/-- Everything a refresh step can do to the records: it adds rows of the raster it reads, whichever way it ends, and
if it goes on it has sent them all. -/
theorem flushEach_records (rows : List Nat) (s : State) :
    (∃ t d, flushEach rows s = .going (s.afterSends (rows.map (rowRecord s)) t d)) ∨
    (∃ r, flushEach rows s = .ended r ∧ ∀ u, r = .next u →
      ∃ shown : List Nat, (∀ x ∈ shown, x ∈ rows) ∧ u.sends = s.sends ++ shown.map (rowRecord s)) := by
  rcases flushEach_cases rows s with ⟨t, d, -, h⟩ | ⟨k, t, d, -, -, h | h⟩ | ⟨-, h⟩
  · exact .inl ⟨t, d, h⟩
  · refine .inr ⟨_, h, fun u hu => ⟨rows.take (k + 1), fun x => List.mem_of_mem_take, ?_⟩⟩
    rw [← Host.Outcome.next.inj hu]
    rfl
  · refine .inr ⟨_, h, fun u hu => ⟨rows.take (k + 1), fun x => List.mem_of_mem_take, ?_⟩⟩
    rw [← Host.Outcome.next.inj hu]
    rfl
  · exact .inr ⟨_, h, fun u hu => nomatch hu⟩

/-- Everything a string can do to the records: each shows a row of a glyph in the raster that the first `k`
characters leave, and these characters all fit. -/
theorem drawString_records {f : Font} {mode : Mode} {sp y : Nat} (hf : 0 < f.fw) (chars : List Nat) (cur n : Nat)
    (s t : State) (h : finish (drawString f mode sp y chars cur n s) = .next t) :
    ∃ new, t.sends = s.sends ++ new ∧ ∀ r ∈ new, ∃ k row, 0 < k ∧
      k ≤ glyphsThatFit s.width f.fw sp cur chars.length ∧ y + f.fh ≤ s.height ∧ y ≤ row ∧ row < y + f.fh ∧
      r = rowRecord (s.withGlyphs f mode (f.fw + sp) y (chars.take k) cur) row := by
  induction chars generalizing s cur n with
  | nil =>
    refine ⟨[], ?_, by simp⟩
    rw [← Host.Outcome.next.inj h]
    simp
  | cons c rest ih =>
    rw [drawString] at h
    by_cases hw : cur + f.fw > s.width
    · rw [if_pos hw] at h
      refine ⟨[], ?_, by simp⟩
      rw [← Host.Outcome.next.inj h]
      simp
    rw [if_neg hw] at h
    by_cases hh : y + f.fh > s.height
    · rw [if_pos hh] at h
      refine ⟨[], ?_, by simp⟩
      rw [← Host.Outcome.next.inj h]
      simp
    rw [if_neg hh, drawGlyph_eq, flushRows] at h
    have fits : glyphsThatFit s.width f.fw sp cur (c :: rest).length
        = glyphsThatFit s.width f.fw sp (cur + (f.fw + sp)) rest.length + 1 :=
      glyphsThatFit_succ hf (by omega)
    have first : ∀ r ∈ (List.range' y f.fh).map (rowRecord (s.withGlyph f c mode cur y)), ∃ k row, 0 < k ∧
        k ≤ glyphsThatFit s.width f.fw sp cur (c :: rest).length ∧ y + f.fh ≤ s.height ∧ y ≤ row ∧
        row < y + f.fh ∧ r = rowRecord (s.withGlyphs f mode (f.fw + sp) y ((c :: rest).take k) cur) row := by
      intro r hr
      obtain ⟨row, hrow, rfl⟩ := List.mem_map.mp hr
      have := List.mem_range'.mp hrow
      exact ⟨1, row, by omega, by omega, by omega, by omega, by omega, by simp [State.withGlyphs]⟩
    rcases flushEach_records (List.range' y f.fh) (s.withGlyph f c mode cur y) with ⟨tr, d, e⟩ | ⟨r, e, hr⟩
    · rw [e] at h
      simp only [Nat.add_assoc] at h
      obtain ⟨new, hs, hn⟩ := ih _ _ _ h
      refine ⟨(List.range' y f.fh).map (rowRecord (s.withGlyph f c mode cur y)) ++ new, ?_, fun r hr => ?_⟩
      · rw [hs, ← List.append_assoc]
        rfl
      rcases List.mem_append.mp hr with hr | hr
      · exact first r hr
      · obtain ⟨k, row, -, hk, hy, hlo, hhi, rfl⟩ := hn r hr
        refine ⟨k + 1, row, by omega, ?_, hy, hlo, hhi, ?_⟩
        · rw [fits]
          exact Nat.succ_le_succ hk
        · rw [withGlyphs_afterSends, afterSends_rowRecord]
          rfl
    · rw [e] at h
      obtain ⟨shown, hin, hs⟩ := hr t h
      refine ⟨_, hs, fun r hr => ?_⟩
      obtain ⟨row, hrow, rfl⟩ := List.mem_map.mp hr
      exact first _ (List.mem_map.mpr ⟨row, hin row hrow, rfl⟩)

/-- A string whose glyphs all fit, with answers enough: it leaves the raster of its glyphs. -/
theorem drawString_raster {f : Font} {mode : Mode} {sp y : Nat} (hf : 0 < f.fw) (chars : List Nat) (cur n : Nat)
    (s : State) (hfit : chars.length ≤ glyphsThatFit s.width f.fw sp cur chars.length) (hy : y + f.fh ≤ s.height)
    (rest : List TransportEvent) (ha : s.Acknowledged (chars.length * f.fh) rest) :
    ∃ rs m, drawString f mode sp y chars cur n s = .going
      (((s.withGlyphs f mode (f.fw + sp) y chars cur).afterSends rs rest s.ackDraws).withResult 0 m) := by
  induction chars generalizing s cur n with
  | nil =>
    have : s.transport = rest := by simpa [State.Acknowledged] using ha
    subst this
    exact ⟨[], n, by rw [drawString, State.withGlyphs, afterSends_nil]⟩
  | cons c cs ih =>
    have hx : cur + f.fw ≤ s.width := by
      by_contra hx
      rw [glyphsThatFit_zero (by omega)] at hfit
      simp at hfit
    have fits : glyphsThatFit s.width f.fw sp cur (c :: cs).length
        = glyphsThatFit s.width f.fw sp (cur + (f.fw + sp)) cs.length + 1 := glyphsThatFit_succ hf hx
    rw [fits] at hfit
    have ha' : (s.withGlyph f c mode cur y).Acknowledged (List.range' y f.fh).length
        (List.replicate (cs.length * f.fh) (.ack .ok) ++ rest) := by
      simp only [State.Acknowledged] at ha ⊢
      rw [List.length_range', ← List.append_assoc, List.replicate_append_replicate]
      rw [List.length_cons, Nat.succ_mul, Nat.add_comm] at ha
      exact ha
    obtain ⟨rs, m, e⟩ := ih (cur + (f.fw + sp)) (n + 1)
      ((s.withGlyph f c mode cur y).afterSends ((List.range' y f.fh).map (rowRecord (s.withGlyph f c mode cur y)))
        (List.replicate (cs.length * f.fh) (TransportEvent.ack .ok) ++ rest)
        (s.withGlyph f c mode cur y).ackDraws)
      (Nat.le_of_succ_le_succ hfit) hy rfl
    refine ⟨(List.range' y f.fh).map (rowRecord (s.withGlyph f c mode cur y)) ++ rs, m, ?_⟩
    rw [drawString, if_neg (by omega), if_neg (by omega), drawGlyph_eq, flushRows, flushEach_ok ha']
    simp only [Nat.add_assoc]
    rw [e, withGlyphs_afterSends, afterSends_afterSends]
    rfl

end Sys2Proof.Machine
end

