-- ==== Sys2Proof/Laws/Step.lean ====
section
/-! SUPPORT. What one step can do, once. -/

namespace Sys2Proof.Machine

/-- How a step that answers a next state `t` has gone. -/
inductive Stepped (s t : State) : Prop where
  /-- The host has no move left. -/
  | idle (hh : s.host = []) (ht : t = s)
  /-- A write of `CMD` ran a command. -/
  | command (cw : CmdWord) (rest : List HostAction) (i : Instr) (hh : s.host = .writeReg 0 cw :: rest)
      (hf : s.fault = false) (hd : decode cw = .ok i) (ht : exec i (s.withHost rest) = .next t)
  /-- The word was illegal. -/
  | illegal (cw : CmdWord) (rest : List HostAction) (hh : s.host = .writeReg 0 cw :: rest)
      (hf : s.fault = false) (ht : t = (s.withHost rest).withStatus .badCommand)
  /-- A write of a register other than `CMD`, a word to a faulted engine, or a write beyond `OPB`. -/
  | ignored (m : HostAction) (rest : List HostAction) (hh : s.host = m :: rest) (hm : m ≠ .reset)
      (ht : t = s.withHost rest)
  /-- A read. -/
  | read (m : HostAction) (rest : List HostAction) (d : HostData) (hh : s.host = m :: rest) (hm : m ≠ .reset)
      (ht : t = (s.withHost rest).withRead d)
  /-- A write of the operand buffer. -/
  | wroteOpb (a : Nat) (v : Byte) (rest : List HostAction) (hh : s.host = .writeOpb a v :: rest)
      (ha : a < s.params.opbCapacity)
      (ht : t = (s.withHost rest).withOpb (Memory.write Config.opbBlank s.opb a v))
  /-- A reset by the host. -/
  | reset (rest : List HostAction) (hh : s.host = .reset :: rest) (ht : t = (s.withHost rest).afterReset)

/-- Everything a step that answers a next state can have done. -/
theorem step_next {s t : State} (h : step s = .next t) : Stepped s t := by
  unfold step hostStep at h
  split at h
  · rename_i e
    exact .idle e (Host.Outcome.next.inj h).symm
  · rename_i m rest e
    cases m with
    | writeReg no v =>
      simp only [hostMove, writeRegister] at h
      split at h
      · rename_i h0
        subst h0
        unfold execute at h
        split at h
        · exact .ignored _ rest e (by simp) (Host.Outcome.next.inj h).symm
        · rename_i hf
          split at h
          · rename_i i hd
            exact .command v rest i e (by simpa using hf) hd h
          · exact .illegal v rest e (by simpa using hf) (Host.Outcome.next.inj h).symm
      · exact .ignored _ rest e (by simp) (Host.Outcome.next.inj h).symm
    | readReg no => exact .read _ rest _ e (by simp) (Host.Outcome.next.inj h).symm
    | writeOpb a v =>
      simp only [hostMove, writeOpbByte] at h
      split at h
      · rename_i ha
        exact .wroteOpb a v rest e ha (Host.Outcome.next.inj h).symm
      · exact .ignored _ rest e (by simp) (Host.Outcome.next.inj h).symm
    | readOpb a => exact .read _ rest _ e (by simp) (Host.Outcome.next.inj h).symm
    | reset => exact .reset rest e (Host.Outcome.next.inj h).symm

/-- A write of `CMD` on an engine without the fatal fault runs the decoded command. -/
theorem step_command {s : State} {cw : CmdWord} {rest : List HostAction} {i : Instr}
    (hh : s.host = .writeReg 0 cw :: rest) (hf : s.fault = false) (hd : decode cw = .ok i) :
    step s = exec i (s.withHost rest) := by
  simp only [step, hostStep, hh, hostMove, writeRegister, execute, if_true, withHost_fault, hf, hd]
  rfl

/-- `withFetchWord` makes the very next step run the word. -/
theorem step_withFetchWord {s : State} {nbits w : Nat} {i : Instr} (hf : s.fault = false)
    (hd : decode (BitVec.ofNat 64 (w % 2 ^ nbits)) = .ok i) :
    step (s.withFetchWord nbits w) = exec i s :=
  step_command (s := s.withFetchWord nbits w) (rest := s.host) rfl hf hd

end Sys2Proof.Machine
end

