-- ==== Sys2Proof/Tests/Slice0.lean ====
section
/-! SUPPORT. The model's own tests: the checks of `Instr.wf`, words written out from the formats of R81 and R84, one
step per command with the values of `95_test_vectors.md`, and for every obligation with hypotheses a witness that
meets them. -/

namespace Sys2Proof.Tests

open Sys2Proof Sys2Proof.Machine

/-! ## Well-formedness: each check refuses an ill-formed term (R82) -/

theorem test_wf_init_width : (Instr.init 4096 1 .linear).wf = false := by decide
theorem test_wf_init_height : (Instr.init 1 4096 .linear).wf = false := by decide
theorem test_wf_getpx_x : (Instr.getpx 4096 0).wf = false := by decide
theorem test_wf_getpx_y : (Instr.getpx 0 4096).wf = false := by decide
theorem test_wf_wrreg_each : (Instr.wrreg 4096 0 0 0).wf = false ∧ (Instr.wrreg 0 4096 0 0).wf = false ∧
    (Instr.wrreg 0 0 4096 0).wf = false ∧ (Instr.wrreg 0 0 0 4096).wf = false := by decide
theorem test_wf_dchar_coordinates : (Instr.dchar 4096 0 0 0 .xor).wf = false ∧
    (Instr.dchar 0 4096 0 0 .xor).wf = false := by decide
theorem test_wf_dchar_char : (Instr.dchar 0 0 256 0 .xor).wf = false := by decide
theorem test_wf_dchar_font : (Instr.dchar 0 0 0 4 .xor).wf = false := by decide
theorem test_wf_dstr_each : (Instr.dstr 4096 0 0 0 0 .xor).wf = false ∧ (Instr.dstr 0 4096 0 0 0 .xor).wf = false ∧
    (Instr.dstr 0 0 4096 0 0 .xor).wf = false ∧ (Instr.dstr 0 0 0 4096 0 .xor).wf = false ∧
    (Instr.dstr 0 0 0 0 4 .xor).wf = false := by decide
theorem test_wf_rows : (Instr.xlate 4096).wf = false ∧ (Instr.pageof 4096).wf = false := by decide

/-! ## Decoding: words written out field by field, `op font mode ch | h | w | y | x` (R81, R84, E1, E2) -/

/-- INIT 64, 32, LINEAR. -/
theorem test_decode_init : decode
    (0b0001#4 ++ 0b00#2 ++ 0b00#2 ++ 0b00000000#8 ++
      0b000000100000#12 ++ 0b000001000000#12 ++ 0b000000000000#12 ++ 0b000000000000#12)
    = .ok (.init 64 32 .linear) := by decide
/-- INIT 4095, 4095, INTERLEAVED, a legal word. -/
theorem test_decode_init_interleaved : decode 0x1100FFFFFF000000 = .ok (.init 4095 4095 .interleaved) := by decide
/-- CLEAR 1. -/
theorem test_decode_clear : decode
    (0b0010#4 ++ 0b00#2 ++ 0b01#2 ++ 0b00000000#8 ++
      0b000000000000#12 ++ 0b000000000000#12 ++ 0b000000000000#12 ++ 0b000000000000#12)
    = .ok (.clear true) := by decide
/-- GETPX 3, 1: the column is the lowest field. -/
theorem test_decode_getpx : decode
    (0b0011#4 ++ 0b00#2 ++ 0b00#2 ++ 0b00000000#8 ++
      0b000000000000#12 ++ 0b000000000000#12 ++ 0b000000000001#12 ++ 0b000000000011#12)
    = .ok (.getpx 3 1) := by decide
/-- WRREG 3, 5, 8, 16. -/
theorem test_decode_wrreg : decode
    (0b0100#4 ++ 0b00#2 ++ 0b00#2 ++ 0b00000000#8 ++
      0b000000010000#12 ++ 0b000000001000#12 ++ 0b000000000101#12 ++ 0b000000000011#12)
    = .ok (.wrreg 3 5 8 16) := by decide
/-- DCHAR 2, 1, 'A', 3, XOR. -/
theorem test_decode_dchar : decode
    (0b0101#4 ++ 0b11#2 ++ 0b10#2 ++ 0b01000001#8 ++
      0b000000000000#12 ++ 0b000000000000#12 ++ 0b000000000001#12 ++ 0b000000000010#12)
    = .ok (.dchar 2 1 0x41 3 .xor) := by decide
/-- DSTR 1, 2, 4, 9, 2, INVERT: the length is field `w`, the spacing field `h`. -/
theorem test_decode_dstr : decode
    (0b0110#4 ++ 0b10#2 ++ 0b01#2 ++ 0b00000000#8 ++
      0b000000001001#12 ++ 0b000000000100#12 ++ 0b000000000010#12 ++ 0b000000000001#12)
    = .ok (.dstr 1 2 4 9 2 .invert) := by decide
/-- XLATE 5. -/
theorem test_decode_xlate : decode
    (0b0111#4 ++ 0b00#2 ++ 0b00#2 ++ 0b00000000#8 ++
      0b000000000000#12 ++ 0b000000000000#12 ++ 0b000000000101#12 ++ 0b000000000000#12)
    = .ok (.xlate 5) := by decide
/-- PAGEOF 13. -/
theorem test_decode_pageof : decode
    (0b1000#4 ++ 0b00#2 ++ 0b00#2 ++ 0b00000000#8 ++
      0b000000000000#12 ++ 0b000000000000#12 ++ 0b000000001101#12 ++ 0b000000000000#12)
    = .ok (.pageof 13) := by decide
/-- E2: opcodes 0, 9 and 15. -/
theorem test_illegal_opcode : decode 0x5 = .error .opcode ∧ decode 0x9000000000000000 = .error .opcode ∧
    decode 0xFFFFFFFFFFFFFFFF = .error .opcode := by decide
/-- E2: the enumerated fields. -/
theorem test_illegal_enumerations : decode 0x1200004010000000 = .error .variant ∧
    decode 0x2200000000000000 = .error .clearValue ∧ decode 0x5341000000000000 = .error .mode ∧
    decode 0x6301000000000000 = .error .reservedField := by decide
/-- E2: a reserved field that is not 0. -/
theorem test_illegal_reserved : decode 0x1100004010000001 = .error .reservedField ∧
    decode 0x2100000000000001 = .error .reservedField ∧ decode 0x3000000001001001 = .error .reservedField ∧
    decode 0x4001001001000000 = .error .reservedField ∧ decode 0x4400001001000000 = .error .reservedField ∧
    decode 0x5041000001000000 = .error .reservedField ∧ decode 0x5041001000000000 = .error .reservedField ∧
    decode 0x6001000001000000 = .error .reservedField ∧ decode 0x7000000000001001 = .error .reservedField ∧
    decode 0x7100000000001000 = .error .reservedField ∧ decode 0x8000000001001000 = .error .reservedField := by
  decide
theorem test_table_word : decodeTableWord 64 0x5241000000001002 = some (.dchar 2 1 0x41 0 .xor) ∧
    decodeTableWord 64 0 = none := by decide

/-- R91's line for its seventh word, the character in decimal. -/
theorem test_assembly : assembly (.dchar 3 0 0x41 1 .overwrite) = "DCHAR 3, 0, 65, 1, OVERWRITE" := by decide
/-- R90. -/
theorem test_pseudo_instructions : clsMoves = [.writeReg 0 0x2000000000000000] ∧
    textMoves 0 0 [0x41, 0x42] 1 0 .overwrite
      = [.writeOpb 0 0x41, .writeOpb 1 0x42, .writeReg 0 0x6000001002000000] ∧
    blitMoves 3 0 8 1 [0xC8] = [.writeOpb 0 0xC8, .writeReg 0 0x4000001008000003] := by decide

/-! ## One step each -/

/-- A configured raster with the listed bytes, the transport acknowledging `acks` records. -/
def raster (width height : Nat) (variant : Variant) (fb : Memory) (acks : Nat) : State :=
  { State.reset with
    cfgW := BitVec.ofNat 12 width, cfgH := BitVec.ofNat 12 height, cfgVariant := variant, configured := true,
    fb := fb, transport := List.replicate acks (.ack .ok) }

/-- The bytes of a memory from address 0. -/
def bytes (l : List Byte) : Memory := (l.zipIdx.map fun p => (p.2, p.1)).filter fun c => c.2 ≠ 0

/-- The command answers a next state with `p`. -/
def ends (i : Instr) (s : State) (p : State → Bool) : Bool :=
  match exec i s with
  | .next t => p t
  | _ => false

theorem of_ends {i : Instr} {s : State} {p : State → Bool} (h : ends i s p = true) :
    ∃ t, exec i s = .next t ∧ p t = true := by
  unfold ends at h
  split at h
  · rename_i t e
    exact ⟨t, e, h⟩
  · exact absurd h (by simp)

/-- The raster `Z` of the glyph vectors, 16 by 4 and blank. -/
def z (acks : Nat) : State := raster 16 4 .linear [] acks

/-- The raster `F` of the glyph vectors. -/
def f (acks : Nat) : State := raster 16 4 .linear (bytes (List.replicate 8 0xFF)) acks

/-- The start of the region vectors. -/
def w (opb : List Byte) (acks : Nat) : State :=
  { raster 24 2 .linear (bytes [0xA5, 0xA5, 0xA5, 0x5A, 0x5A, 0x5A]) acks with
    opb := opb.zipIdx.map fun p => (p.2, p.1) }

/-- F5. -/
theorem test_init : ends (.init 16 7 .linear) State.reset
    (fun t => t.status = 0 ∧ t.cfgW = 16 ∧ t.cfgH = 7 ∧ t.configured ∧ !t.fault) = true := by decide
/-- F7. -/
theorem test_init_alloc_failure : ends (.init 4095 3 .linear) State.reset
    (fun t => t.status = 4 ∧ t.cfgW = 0 ∧ !t.configured ∧ t.fault) = true := by decide
/-- F9. -/
theorem test_clear : ends (.clear true) (raster 13 2 .linear [] 2)
    (fun t => t.fb = bytes [0xFF, 0xFF, 0xFF, 0xFF] ∧
      t.sends = [⟨0, false, [0xFF, 0xFF]⟩, ⟨1, false, [0xFF, 0xFF]⟩]) = true := by decide
/-- F12: the second record fails. -/
theorem test_clear_failure : ends (.clear true)
    { raster 16 4 .interleaved [] 0 with transport := [.ack .ok, .ack .fail] }
    (fun t => t.status = 2 ∧ t.fb = bytes (List.replicate 8 0xFF) ∧
      t.sends = [⟨0, false, [0xFF, 0xFF]⟩, ⟨2, false, [0xFF, 0xFF]⟩]) = true := by decide
/-- F17. -/
theorem test_getpx : ends (.getpx 12 0) (raster 13 2 .linear (bytes [0xB9, 0x08, 0x00, 0x0F]) 0)
    (fun t => t.status = 0 ∧ t.result = 1) = true := by decide
/-- F18: the byte exists, the pixel does not. -/
theorem test_getpx_pad : ends (.getpx 13 0)
    { raster 13 2 .linear (bytes [0xB9, 0x08, 0x00, 0x0F]) 0 with result := 1 }
    (fun t => t.status = 1 ∧ t.result = 1) = true := by decide
/-- W14: three bytes a row from two source bytes. -/
theorem test_wrreg : ends (.wrreg 7 0 10 2) (w [0x00, 0x3F, 0xFF, 0xC0] 2)
    (fun t => t.fb = bytes [0xA4, 0x00, 0x25, 0x5B, 0xFF, 0xDA] ∧ t.status = 0 ∧
      t.sends = [⟨0, false, [0xA4, 0x00, 0x25]⟩, ⟨1, false, [0x5B, 0xFF, 0xDA]⟩]) = true := by decide
/-- W4: a region inside one byte, the source's pad bits set. -/
theorem test_wrreg_inside_byte : ends (.wrreg 3 0 4 1) (w [0xFF] 1)
    (fun t => t.fb = bytes [0xBF, 0xA5, 0xA5, 0x5A, 0x5A, 0x5A]) = true := by decide
/-- D4. -/
theorem test_dchar_xor : ends (.dchar 2 1 0x41 0 .xor) (f 3)
    (fun t => t.fb = bytes [0xFF, 0xFF, 0xFD, 0xFF, 0xF7, 0xFF, 0xF1, 0xFF] ∧ t.sends.length = 3) = true := by
  decide +kernel
/-- D11: a font with a stride, and the last table entry. -/
theorem test_dchar_stride : ends (.dchar 2 0 0x7E 2 .overwrite) (z 2)
    (fun t => t.fb = bytes [0x3E, 0x84, 0x0D, 0x14, 0, 0, 0, 0]) = true := by decide +kernel
/-- T10: the newline draws a space. -/
theorem test_dstr : ends (.dstr 1 1 3 0 0 .overwrite) { z 9 with opb := [(0, 0x41), (1, 0x0A), (2, 0x42)] }
    (fun t => t.fb = bytes [0, 0, 0x04, 0x02, 0x10, 0x65, 0x1C, 0xC8] ∧ t.result = 3) = true := by decide +kernel
/-- T8: the fourth record fails. -/
theorem test_dstr_failure : ends (.dstr 0 1 3 1 0 .overwrite)
    { z 0 with
      opb := [(0, 0x41), (1, 0x42), (2, 0x43)], result := 0x77
      transport := [.ack .ok, .ack .ok, .ack .ok, .ack .fail] }
    (fun t => t.fb = bytes [0, 0, 0x08, 0x40, 0x20, 0xA0, 0x39, 0x00] ∧ t.status = 2 ∧ t.result = 0x77 ∧
      t.sends.length = 4) = true := by decide +kernel
/-- S4: row 5 of 8, interleaved. -/
theorem test_xlate : ends (.xlate 5) (raster 8 8 .interleaved [] 0) (fun t => t.result = 6) = true := by decide
theorem test_xlate_bound : ends (.xlate 8) (raster 8 8 .interleaved [] 0)
    (fun t => t.status = 1 ∧ t.result = 0) = true := by decide
/-- S4: row 13 is page 1, bit 5. -/
theorem test_pageof : ends (.pageof 13) (raster 8 14 .linear [] 0)
    (fun t => t.result = 0x00010005) = true := by decide
theorem test_pageof_bound : ends (.pageof 14) (raster 8 14 .linear [] 0) (fun t => t.status = 1) = true := by decide

/-! ## Witnesses: for every obligation with hypotheses, a state and operands that meet them all, one for each
clause, at the bounds of its range -/

/-- `s` with one more move of the host in front. -/
def hostDoes (m : HostAction) (s : State) : State := { s with host := [m, .readReg 1] }

/-- `s` in the fault state of R226. -/
def faulted : State := { State.reset with fault := true, status := 4 }

/-- A raster whose first SEND record is answered by `e`. -/
def answeredBy (e : TransportEvent) : State := { raster 16 4 .linear [] 0 with transport := [e] }

/-- `Z` with `k` records acknowledged and then `e`. -/
def stopsAt (k : Nat) (e : TransportEvent) : State :=
  { z 0 with transport := List.replicate k (.ack .ok) ++ [e] }

/-- The platform's fonts with the last of them one byte short. -/
def badFonts : Params :=
  { Config.vectorParams with fonts := { Config.vectorParams.fonts with font3 := some ⟨1, 1, 1, []⟩ } }

/-- A raster on that platform. -/
def onBadFonts : State := { raster 16 4 .linear [] 0 with params := badFonts }

theorem witness_DecodeOfEncodeIsTheCommand :
    (Instr.init 4095 4095 .interleaved).wf = true ∧ (Instr.clear true).wf = true ∧
    (Instr.getpx 4095 4095).wf = true ∧ (Instr.wrreg 4095 4095 4095 4095).wf = true ∧
    (Instr.dchar 4095 4095 255 3 .xor).wf = true ∧ (Instr.dstr 4095 4095 4095 4095 3 .xor).wf = true ∧
    (Instr.xlate 4095).wf = true ∧ (Instr.pageof 4095).wf = true := by decide

theorem witness_EncodeOfDecodeIsTheWord :
    decode 0x6E00FFFFFFFFFFFF = .ok (.dstr 4095 4095 4095 4095 3 .xor) := by decide

theorem witness_OpcodeMapAgreesWithDecode :
    opcodeRows.all (fun row => selects row.matchVal row && !(selects 0 row)) = true := by decide

theorem witness_IllegalWordsOnlyReportBadCommand :
    (hostDoes (.writeReg 0 0x5341000000000000) State.reset).host
      = .writeReg 0 0x5341000000000000 :: [.readReg 1] ∧
    (hostDoes (.writeReg 0 0x5341000000000000) State.reset).fault = false ∧
    decode 0x5341000000000000 = .error .mode := by decide

theorem witness_StepRunsTheDecodedCommand :
    (hostDoes (.writeReg 0 0x4000FFFFFFFFFFFF) (z 0)).host = .writeReg 0 0x4000FFFFFFFFFFFF :: [.readReg 1] ∧
    (hostDoes (.writeReg 0 0x4000FFFFFFFFFFFF) (z 0)).fault = false ∧
    decode 0x4000FFFFFFFFFFFF = .ok (.wrreg 4095 4095 4095 4095) := by decide

theorem witness_FaultedEngineIgnoresEveryCommand :
    ((hostDoes (.writeReg 0 0x1000004010000000) faulted).host = .writeReg 0 0x1000004010000000 :: [.readReg 1] ∧
      (hostDoes (.writeReg 0 0x1000004010000000) faulted).fault = true) ∧
    (∃ t, step (hostDoes (.writeOpb 0 1) faulted) = .next t ∧ t.resets = 0) ∧
    (∃ t, step (hostDoes .reset faulted) = .next t ∧ t.fault = false) :=
  ⟨by decide, ⟨_, rfl, rfl⟩, ⟨_, rfl, rfl⟩⟩

theorem witness_HostRegisterAccess :
    (∀ no ∈ [0, 1, 2, 3, 4, 5, 6, 7],
      (hostDoes (.readReg no) (z 0)).host = .readReg no :: [.readReg 1]) ∧
    ((hostDoes (.writeReg 1 5) (z 0)).host = .writeReg 1 5 :: [.readReg 1] ∧ 1 ≠ 0) := by decide

theorem witness_HostOperandBufferAccess :
    ((hostDoes (.writeOpb 255 5) (z 0)).host = .writeOpb 255 5 :: [.readReg 1] ∧
      255 < (z 0).params.opbCapacity) ∧
    ((hostDoes (.writeOpb 256 5) (z 0)).host = .writeOpb 256 5 :: [.readReg 1] ∧
      (z 0).params.opbCapacity ≤ 256) ∧
    (hostDoes (.readOpb 255) (z 0)).host = .readOpb 255 :: [.readReg 1] := by decide

theorem witness_EachStepTakesOneHostMove :
    (∃ t, step (hostDoes (.readReg 1) (z 0)) = .next t) ∧ (z 0).host = [] := ⟨⟨_, rfl⟩, rfl⟩

theorem witness_HostResetMove :
    (hostDoes .reset (z 0)).host = .reset :: [.readReg 1] ∧ 255 < (hostDoes .reset (z 0)).params.opbCapacity := by
  decide

theorem witness_AbandonedCommandIsAReset :
    (∃ t, exec (.clear true) (answeredBy .reset) = .next t ∧ t.resets ≠ (answeredBy .reset).resets) ∧
    ((answeredBy .reset).configured = true ∧ 0 < (answeredBy .reset).height ∧
      (answeredBy .reset).AcknowledgedThen 0 .reset []) ∧
    (3 < (stopsAt 3 .reset).height ∧
      (stopsAt 3 .reset).AcknowledgedThen 3 .reset []) := by
  refine ⟨?_, ⟨rfl, by decide, rfl⟩, by decide, rfl⟩
  obtain ⟨t, h, hp⟩ := of_ends (i := .clear true) (s := answeredBy .reset) (p := fun t => t.resets = 1) (by decide)
  exact ⟨t, h, by rw [of_decide_eq_true hp]; decide⟩

theorem witness_InitConstructsOrRefuses :
    ((Instr.init 16 4 .linear).wf = true ∧ (z 0).configured = true) ∧
    ((Instr.init 16 7 .interleaved).wf = true ∧ State.reset.configured = false ∧ 7 % 2 = 1) ∧
    ((Instr.init 0 4 .linear).wf = true ∧ (Instr.init 4 0 .linear).wf = true) ∧
    ((Instr.init 9 513 .linear).wf = true ∧ State.reset.params.fbCapacity < 513 * ceil8 9) ∧
    ((Instr.init 9 512 .interleaved).wf = true ∧ 512 % 2 = 0 ∧
      512 * ceil8 9 ≤ State.reset.params.fbCapacity) := by decide

theorem witness_ClearFillsAndRefreshes :
    State.reset.configured = false ∧
    ((z 4).configured = true ∧ (z 4).Acknowledged (z 4).height []) ∧
    (0 < (answeredBy (.ack .fail)).height ∧ (answeredBy (.ack .fail)).configured = true ∧
      (answeredBy (.ack .fail)).AcknowledgedThen 0 (.ack .fail) []) ∧
    (stopsAt 3 (.ack .fail)).AcknowledgedThen 3 (.ack .fail) [] ∧
    3 < (z 0).height := ⟨rfl, ⟨rfl, rfl⟩, ⟨by decide, rfl, rfl⟩, rfl, by decide⟩

theorem witness_GetpxReadsTheStoredPixel :
    State.reset.configured = false ∧ (z 0).configured = true ∧ (z 0).width ≤ 16 ∧ (z 0).height ≤ 4 ∧
    15 < (z 0).width ∧ 3 < (z 0).height := by decide

theorem witness_WrregChecksInOrder :
    State.reset.configured = false ∧ (z 0).configured = true ∧
    (z 0).params.opbCapacity < 1 * ceil8 2049 ∧
    (1 * ceil8 17 ≤ (z 0).params.opbCapacity ∧ (z 0).width < 0 + 17) ∧
    (1 * ceil8 1 ≤ (z 0).params.opbCapacity ∧ (z 0).height < 4 + 1) ∧
    (0 * ceil8 0 ≤ (z 0).params.opbCapacity ∧ 16 + 0 ≤ (z 0).width ∧ 4 + 0 ≤ (z 0).height) := by decide

/-- The start of the region vectors, the second record failing. -/
def wFails : State := { w [0] 0 with transport := [.ack .ok, .ack .fail] }

theorem witness_WrregMergesTheRegion :
    (w [0] 2).configured = true ∧ 2 * ceil8 24 ≤ (w [0] 2).params.opbCapacity ∧ 0 + 24 ≤ (w [0] 2).width ∧
    0 + 2 ≤ (w [0] 2).height ∧ (w [0] 2).Acknowledged 2 [] ∧
    ((wFails.configured = true ∧ 2 * ceil8 24 ≤ wFails.params.opbCapacity ∧ 0 + 24 ≤ wFails.width ∧
      0 + 2 ≤ wFails.height) ∧ 1 < 2 ∧ wFails.AcknowledgedThen 1 (.ack .fail) []) :=
  ⟨rfl, by decide, by decide, by decide, rfl, by decide, by decide, rfl⟩

theorem witness_AlignedWriteIsAByteCopy :
    (w [] 2).configured = true ∧ 2 * ceil8 16 ≤ (w [] 2).params.opbCapacity ∧ 8 + 16 ≤ (w [] 2).width ∧
    0 + 2 ≤ (w [] 2).height ∧ 8 % 8 = 0 ∧ 16 % 8 = 0 ∧ (w [] 2).Acknowledged 2 [] :=
  ⟨rfl, by decide, by decide, by decide, rfl, rfl, rfl⟩

theorem witness_WritingARegionTwiceIsIdempotent :
    (w [] 4).configured = true ∧ 2 * ceil8 10 ≤ (w [] 4).params.opbCapacity ∧ 14 + 10 ≤ (w [] 4).width ∧
    0 + 2 ≤ (w [] 4).height ∧ (w [] 4).Acknowledged (2 + 2) [] :=
  ⟨rfl, by decide, by decide, by decide, rfl⟩

/-- W4 and the same source with its pad bits 0. -/
theorem witness_SourcePadBitsAreIgnored :
    (∀ q i, q < 4 → i < 1 →
      srcPix { w [0xFF] 1 with opb := [(0, 0xF0)] }.opbByte 4 q i = srcPix (w [0xFF] 1).opbByte 4 q i) ∧
    ∃ t, exec (.wrreg 3 0 4 1) (w [0xFF] 1) = .next t := by
  constructor
  · intro q i hq hi
    interval_cases i
    interval_cases q <;> decide
  · obtain ⟨t, h, -⟩ := of_ends (i := .wrreg 3 0 4 1) (s := w [0xFF] 1) (p := fun _ => true) (by decide)
    exact ⟨t, h⟩

theorem witness_DcharChecksInOrder :
    State.reset.configured = false ∧ (z 0).configured = true ∧ fontOf (z 0).params.fonts 3 = none ∧
    (fontOf (z 0).params.fonts 0 = some Config.t5x3 ∧ fontWf Config.t5x3 = true ∧
      (z 0).width < 12 + Config.t5x3.fw ∧ (z 0).height < 2 + Config.t5x3.fh) :=
  ⟨rfl, rfl, rfl, rfl, by decide +kernel, by decide, by decide⟩

theorem witness_DcharDrawsTheGlyph :
    (z 3).configured = true ∧ fontOf (z 3).params.fonts 0 = some Config.t5x3 ∧ fontWf Config.t5x3 = true ∧
    11 + Config.t5x3.fw ≤ (z 3).width ∧ 1 + Config.t5x3.fh ≤ (z 3).height ∧
    (z 3).Acknowledged Config.t5x3.fh [] ∧
    ((stopsAt 2 (.ack .fail)).configured = true ∧
      fontOf (stopsAt 2 (.ack .fail)).params.fonts 0 = some Config.t5x3 ∧
      11 + Config.t5x3.fw ≤ (stopsAt 2 (.ack .fail)).width ∧
      1 + Config.t5x3.fh ≤ (stopsAt 2 (.ack .fail)).height ∧
      2 < Config.t5x3.fh ∧ (stopsAt 2 (.ack .fail)).AcknowledgedThen 2 (.ack .fail) []) :=
  ⟨rfl, rfl, by decide +kernel, by decide, by decide, rfl, rfl, rfl, by decide, by decide, by decide, rfl⟩

theorem witness_TransformTruthTables : Config.vectorParams.invertFn = Config.invertNotG := rfl

theorem witness_UnprintableCodesDrawTheSpace : 0x1F < 0x20 ∧ 0x7E < 0x7F := by decide

theorem witness_DrawingAGlyphTwice :
    (z 6).configured = true ∧ fontOf (z 6).params.fonts 0 = some Config.t5x3 ∧ fontWf Config.t5x3 = true ∧
    11 + Config.t5x3.fw ≤ (z 6).width ∧ 1 + Config.t5x3.fh ≤ (z 6).height ∧
    (z 6).Acknowledged (Config.t5x3.fh + Config.t5x3.fh) [] ∧ (z 6).params.invertFn = Config.invertNotG :=
  ⟨rfl, rfl, by decide +kernel, by decide, by decide, rfl, rfl⟩

theorem witness_DstrChecksInOrder :
    State.reset.configured = false ∧ (z 0).configured = true ∧ fontOf (z 0).params.fonts 3 = none ∧
    (z 0).params.opbCapacity < 257 ∧
    (fontOf (z 0).params.fonts 0 = some Config.t5x3 ∧ fontWf Config.t5x3 = true ∧
      256 ≤ (z 0).params.opbCapacity ∧ (z 0).width < 12 + Config.t5x3.fw ∧
      11 + Config.t5x3.fw ≤ (z 0).width ∧ (z 0).height < 2 + Config.t5x3.fh) :=
  ⟨rfl, rfl, rfl, by decide, rfl, by decide +kernel, by decide, by decide, by decide, by decide⟩

/-- T5: three of four glyphs fit. -/
theorem witness_DstrIsSuccessiveDchars :
    (z 9).configured = true ∧ fontOf (z 9).params.fonts 0 = some Config.t5x3 ∧ fontWf Config.t5x3 = true ∧
    4 ≤ (z 9).params.opbCapacity ∧ glyphsThatFit (z 9).width Config.t5x3.fw 0 0 4 = 3 ∧
    1 + Config.t5x3.fh ≤ (z 9).height ∧
    (z 9).Acknowledged (glyphsThatFit (z 9).width Config.t5x3.fw 0 0 4 * Config.t5x3.fh) [] :=
  ⟨rfl, rfl, by decide +kernel, by decide, by decide, by decide, rfl⟩

/-- `Z` with the string "ABC". -/
def spelled (acks : Nat) : State := { z acks with opb := [(0, 0x41), (1, 0x42), (2, 0x43)] }

/-- T11: the columns 0 to 4 and 11 to 15 are drawn, column 5 is not. -/
theorem witness_DstrPixels :
    (spelled 6).configured = true ∧ fontOf (spelled 6).params.fonts 0 = some Config.t5x3 ∧
    (spelled 6).Acknowledged (glyphsThatFit (spelled 6).width Config.t5x3.fw 6 0 3 * Config.t5x3.fh) [] ∧
    (∃ t, exec (.dstr 0 0 3 6 0 .overwrite) (spelled 6) = .next t ∧ t.status = 0) ∧
    15 < 8 * (spelled 6).bpr ∧ 2 < (spelled 6).height ∧
    (1 < glyphsThatFit (spelled 6).width Config.t5x3.fw 6 0 3 ∧ 0 + 1 * (5 + 6) ≤ 11 ∧
      15 < 0 + 1 * (5 + 6) + 5 ∧ 0 ≤ 2 ∧ 2 < 0 + 3) ∧
    (∀ n, n < glyphsThatFit (spelled 6).width Config.t5x3.fw 6 0 3 →
      ¬ (0 + n * (5 + 6) ≤ 5 ∧ 5 < 0 + n * (5 + 6) + 5)) := by
  refine ⟨rfl, rfl, rfl, ?_, by decide, by decide, by decide, fun n hn => by omega⟩
  obtain ⟨t, h, hp⟩ := of_ends (i := .dstr 0 0 3 6 0 .overwrite) (s := spelled 6) (p := fun t => t.status = 0)
    (by decide +kernel)
  exact ⟨t, h, of_decide_eq_true hp⟩

/-- T8: the first record of the second glyph fails. -/
theorem witness_DstrStopsAtTheFirstFailure :
    (stopsAt 3 (.ack .fail)).configured = true ∧
    fontOf (stopsAt 3 (.ack .fail)).params.fonts 0 = some Config.t5x3 ∧ fontWf Config.t5x3 = true ∧
    3 ≤ (stopsAt 3 (.ack .fail)).params.opbCapacity ∧ 1 + Config.t5x3.fh ≤ (stopsAt 3 (.ack .fail)).height ∧
    3 < glyphsThatFit (stopsAt 3 (.ack .fail)).width Config.t5x3.fw 1 0 3 * Config.t5x3.fh ∧
    (stopsAt 3 (.ack .fail)).AcknowledgedThen 3 (.ack .fail) [] :=
  ⟨rfl, rfl, by decide +kernel, by decide, by decide, by decide, rfl⟩

theorem witness_XlateAnswersThePhysicalRow :
    State.reset.configured = false ∧ (z 0).configured = true ∧ (z 0).height ≤ 4 ∧ 3 < (z 0).height ∧
    (z 0).cfgVariant = .linear ∧ (raster 8 8 .interleaved [] 0).cfgVariant = .interleaved ∧
    (6 < (raster 8 8 .interleaved [] 0).height ∧ 6 % 2 = 0) ∧
    (7 < (raster 8 8 .interleaved [] 0).height ∧ 7 % 2 = 1) := by decide

theorem witness_PageofAnswersPageAndBit :
    State.reset.configured = false ∧ (z 0).configured = true ∧ (z 0).height ≤ 4 ∧ 3 < (z 0).height := by decide

theorem witness_InterleavedMapIsABijection :
    (6 < 2 * 4 ∧ toPhysical .interleaved (2 * 4) 6 < 4) ∧ (1 < 2 * 4 ∧ 4 ≤ toPhysical .interleaved (2 * 4) 1) ∧
    (3 < 2 * 4 ∧ 3 < 4) ∧ (4 < 2 * 4 ∧ 4 ≤ 4) := by decide

theorem witness_UnconfiguredEngineAcceptsOnlyInit :
    State.reset.configured = false ∧ ∀ w h v, Instr.pageof 0 ≠ .init w h v := ⟨rfl, by simp⟩

/-- `rejected` of a numeral. -/
theorem rejected_six : rejected 6 := by unfold rejected; decide

theorem witness_RejectedCommandLeavesNoTrace :
    (∃ t, exec (.getpx 0 0) State.reset = .next t ∧ rejected t.status) ∧
    (∃ t, exec (.init 4095 3 .linear) State.reset = .next t ∧ rejected t.status) := by
  refine ⟨⟨_, rfl, rejected_six⟩, ?_⟩
  obtain ⟨t, h, hp⟩ := of_ends (i := .init 4095 3 .linear) (s := State.reset) (p := fun t => t.status = 4) (by decide)
  refine ⟨t, h, ?_⟩
  rw [of_decide_eq_true hp]
  unfold rejected
  decide

theorem witness_RejectionDoesNotReadTheMemories :
    ∃ t, exec (.wrreg 4095 0 4095 0) State.reset = .next t ∧ rejected t.status := ⟨_, rfl, rejected_six⟩

theorem witness_ResultIsWrittenOnSuccessOnly :
    ∃ t, exec (.pageof 3) (z 0) = .next t ∧ t.resets = (z 0).resets ∧ t.result ≠ (z 0).result := by
  obtain ⟨t, h, hp⟩ := of_ends (i := .pageof 3) (s := z 0) (p := fun t => t.resets = 0 ∧ t.result = 3) (by decide)
  obtain ⟨h1, h2⟩ := of_decide_eq_true hp
  exact ⟨t, h, h1, by rw [h2]; decide⟩

theorem witness_CommandsKeepConfigurationAndOperands :
    (∃ t, exec (.dchar 2 1 0x41 0 .xor) (f 3) = .next t ∧ t.resets = (f 3).resets) ∧
    ∀ w h v, Instr.dchar 2 1 0x41 0 .xor ≠ .init w h v := by
  refine ⟨?_, by simp⟩
  obtain ⟨t, h, hp⟩ := of_ends (i := .dchar 2 1 0x41 0 .xor) (s := f 3) (p := fun t => t.resets = 0)
    (by decide +kernel)
  exact ⟨t, h, of_decide_eq_true hp⟩

theorem witness_FramebufferStoresStayInTheirBytes :
    (∃ t, exec (.getpx 15 3) (z 0) = .next t) ∧
    (∃ t, exec (.clear true) (z 4) = .next t ∧ t.resets = (z 4).resets) ∧ (z 4).fbSize ≤ 8 ∧
    (∃ t, exec (.wrreg 7 0 10 2) (w [0, 0, 0, 0] 2) = .next t ∧ t.resets = (w [0, 0, 0, 0] 2).resets) ∧
    (∃ t, exec (.wrreg 24 2 0 0) (w [] 0) = .next t ∧ t.resets = (w [] 0).resets) ∧
    (fontOf (z 3).params.fonts 0 = some Config.t5x3 ∧
      ∃ t, exec (.dchar 2 1 0x41 0 .overwrite) (z 3) = .next t ∧ t.resets = (z 3).resets) ∧
    (∃ t, exec (.dstr 0 1 1 0 0 .overwrite) { z 3 with opb := [(0, 0x41)] } = .next t ∧ t.resets = (z 3).resets) := by
  have get : ∀ {i : Instr} {s : State}, ends i s (fun t => t.resets = 0) = true →
      ∃ t, exec i s = .next t ∧ t.resets = 0 := fun h =>
    let ⟨t, e, hp⟩ := of_ends h
    ⟨t, e, of_decide_eq_true hp⟩
  refine ⟨?_, get (by decide), by decide, get (by decide), get (by decide), ⟨rfl, get (by decide +kernel)⟩,
    get (by decide +kernel)⟩
  obtain ⟨t, h, -⟩ := get (i := .getpx 15 3) (s := z 0) (by decide)
  exact ⟨t, h⟩

/-- Two glyphs, the second failing at its first row; a CLEAR; and an INIT. -/
theorem witness_RecordsAreWholeRows :
    (∃ t, exec (.dstr 0 1 3 1 0 .overwrite) { stopsAt 3 (.ack .fail) with opb := [(0, 0x41), (1, 0x42), (2, 0x43)] }
      = .next t ∧ t.sends.length = 4) ∧
    ((∀ x y len spacing font mode, Instr.clear true ≠ .dstr x y len spacing font mode) ∧
      ∃ t, exec (.clear true) (z 4) = .next t ∧ t.resets = (z 4).resets ∧ t.sends.length = 4) ∧
    ∃ t, exec (.init 16 4 .linear) State.reset = .next t := by
  refine ⟨?_, ⟨by simp, ?_⟩, ?_⟩
  · obtain ⟨t, h, hp⟩ := of_ends (i := .dstr 0 1 3 1 0 .overwrite)
      (s := { stopsAt 3 (.ack .fail) with opb := [(0, 0x41), (1, 0x42), (2, 0x43)] })
      (p := fun t => t.sends.length = 4) (by decide +kernel)
    exact ⟨t, h, of_decide_eq_true hp⟩
  · obtain ⟨t, h, hp⟩ := of_ends (i := .clear true) (s := z 4)
      (p := fun t => t.resets = 0 ∧ t.sends.length = 4) (by decide)
    exact ⟨t, h, of_decide_eq_true hp⟩
  · obtain ⟨t, h, -⟩ := of_ends (i := .init 16 4 .linear) (s := State.reset) (p := fun _ => true) (by decide)
    exact ⟨t, h⟩

/-- The fonts of the spec's vectors meet R151. -/
theorem vectorParams_fonts : platformFontsWf Config.vectorParams := by
  intro id g h
  match id, h with
  | 0, h => obtain rfl := Option.some.inj h; decide +kernel
  | 1, h => obtain rfl := Option.some.inj h; decide +kernel
  | 2, h => obtain rfl := Option.some.inj h; decide +kernel
  | 3, h => cases h
  | _ + 4, h => cases h

theorem witness_EveryCommandEndsIfAnswered :
    (TransportEvent.never ∉ (z 4).transport ∧ platformFontsWf (z 4).params) ∧
    (exec (.clear true) (answeredBy .never) = .fault .transportNeverAnswers) ∧
    ((answeredBy .never).configured = true ∧ 0 < (answeredBy .never).height ∧
      (answeredBy .never).AcknowledgedThen 0 .never []) := by
  refine ⟨⟨by decide, vectorParams_fonts⟩, ?_, rfl, by decide, rfl⟩
  have : ∀ {r : Result}, (match r with | .fault e => e == .transportNeverAnswers | _ => false) = true →
      r = .fault .transportNeverAnswers := by
    intro r h
    split at h
    · rw [eq_of_beq h]
    · exact absurd h (by simp)
  exact this (by decide)

theorem witness_OnlyAFontOutsideTheModelIsRefused :
    onBadFonts.configured = true ∧ fontOf onBadFonts.params.fonts 3 = some ⟨1, 1, 1, []⟩ ∧
    fontWf ⟨1, 1, 1, []⟩ = false ∧ 256 ≤ onBadFonts.params.opbCapacity ∧
    exec (.dchar 0 0 0x41 3 .xor) onBadFonts = .refused (.fontOutsideModel 3) :=
  ⟨rfl, rfl, by decide, by decide, rfl⟩

theorem witness_ConfigurationIsImmutable :
    ∃ t, step (hostDoes (.writeReg 0 0x1000004010000000) (z 0)) = .next t ∧
      t.resets = (z 0).resets ∧ (z 0).configured = true := ⟨_, rfl, rfl, rfl⟩

/-- An engine of the invariant with a command to come. -/
theorem witness_StepKeepsTheInvariant :
    (hostDoes (.writeReg 0 0x2100000000000000) (z 4)).Inv ∧
    ∃ t, step (hostDoes (.writeReg 0 0x3000000000000000) (z 4)) = .next t :=
  ⟨⟨by unfold State.RasterInv; decide, by unfold State.MemoryInv; decide, by unfold State.FaultInv; decide,
    by unfold writtenCode; decide⟩, ⟨_, rfl⟩⟩

/-- F9: pad bits 0 before, 1 after. -/
theorem witness_StepKeepsThePadBitsUniform :
    (hostDoes (.writeReg 0 0x2100000000000000) (raster 13 2 .linear [] 2)).PadsAre false ∧
    ∃ t, step (hostDoes (.writeReg 0 0x2100000000000000) (raster 13 2 .linear [] 2)) = .next t ∧
      t.resets = 0 := by
  constructor
  · intro r c hr hc hc'
    replace hr : r < 2 := hr
    replace hc : 13 ≤ c := hc
    replace hc' : c < 16 := hc'
    interval_cases r <;> interval_cases c <;> decide
  · exact ⟨_, rfl, by decide⟩

theorem witness_PadBitsFollowTheLastClear :
    ((Instr.init 13 2 .linear).wf = true ∧ State.reset.configured = false ∧
      ∃ t, exec (.init 13 2 .linear) State.reset = .next t ∧ t.configured = true) ∧
    (∃ t, exec (.clear true) (raster 13 2 .linear [] 2) = .next t ∧ t.resets = 0 ∧ ¬ rejected t.status) ∧
    (∃ t, exec (.wrreg 5 0 8 2) { raster 13 2 .linear [] 2 with opb := [(0, 0), (1, 0)] } = .next t ∧
      t.resets = 0) ∧
    { raster 13 2 .linear [] 2 with opb := [(0, 0), (1, 0)] }.PadsAre false := by
  refine ⟨⟨by decide, rfl, ?_⟩, ?_, ?_, ?_⟩
  · obtain ⟨t, h, hp⟩ := of_ends (i := .init 13 2 .linear) (s := State.reset) (p := fun t => t.configured) (by decide)
    exact ⟨t, h, hp⟩
  · obtain ⟨t, h, hp⟩ := of_ends (i := .clear true) (s := raster 13 2 .linear [] 2)
      (p := fun t => t.resets = 0 ∧ t.status = 0) (by decide)
    obtain ⟨h1, h2⟩ := of_decide_eq_true hp
    exact ⟨t, h, h1, by rw [h2]; unfold rejected; decide⟩
  · obtain ⟨t, h, hp⟩ := of_ends (i := .wrreg 5 0 8 2)
      (s := { raster 13 2 .linear [] 2 with opb := [(0, 0), (1, 0)] }) (p := fun t => t.resets = 0) (by decide)
    exact ⟨t, h, of_decide_eq_true hp⟩
  · intro r c hr hc hc'
    replace hr : r < 2 := hr
    replace hc : 13 ≤ c := hc
    replace hc' : c < 16 := hc'
    interval_cases r <;> interval_cases c <;> decide

theorem witness_StatusCodesAreTheWrittenOnes : ∃ t, exec (.xlate 0) State.reset = .next t := ⟨_, rfl⟩

end Sys2Proof.Tests
end

section
/-! PROOFS. The statements about the state and its accesses: host moves, frames, the fault state, immutability. -/

namespace Sys2Proof.Machine

/-! ## The host's moves

The host's side of the engine: a step takes the first move of the host; what a read returns, and what a
write of a register or of `OPB` does (R24, R28, R34, R60). -/

/-- A step is the host's first move, on the state in which that move is taken. -/
theorem step_of_host {s : State} {m : HostAction} {rest : List HostAction} (hh : s.host = m :: rest) :
    step s = hostMove m (s.withHost rest) := by
  rw [step, hostStep, hh]

theorem step_of_host_nil {s : State} (hh : s.host = []) : step s = .next s := by
  rw [step, hostStep, hh]

/-- A written byte of `OPB` is read back, and no other byte changes (R34). -/
theorem opbByte_write (s : State) (a : Nat) (b : Byte) (a' : Nat) (ha : a < s.params.opbCapacity) :
    (s.withOpb (Memory.write Config.opbBlank s.opb a b)).opbByte a' = if a' = a then b else s.opbByte a' := by
  by_cases h : a' = a
  · simp [State.opbByte, find_write, h, ha]
  · simp [State.opbByte, find_write, h]

/-- From `OPB_CAPACITY` up a byte reads as 0 (R34, V8). -/
theorem opbByte_beyond {s : State} {a : Nat} (ha : s.params.opbCapacity ≤ a) : s.opbByte a = 0 :=
  if_neg (Nat.not_lt.mpr ha)

/-- A register number without readable bits: `CMD` and those from 7 up (R28). -/
theorem readRegister_unreadable (s : State) {no : Nat} (h : no = 0 ∨ 7 ≤ no) : readRegister s no = 0 := by
  rcases h with rfl | h
  · rfl
  · obtain ⟨k, rfl⟩ := Nat.exists_eq_add_of_le' h
    rfl

/-- The bits of `FLAGS` (R28). -/
theorem getLsbD_flagsWord (s : State) :
    (flagsWord s).getLsbD 0 = s.configured ∧ (flagsWord s).getLsbD 1 = s.fault ∧
    ∀ b, 2 ≤ b → (flagsWord s).getLsbD b = false := by
  refine ⟨?_, ?_, fun b hb => ?_⟩
  · cases hc : s.configured <;> cases hf : s.fault <;> simp [flagsWord, hc, hf]
  · cases hc : s.configured <;> cases hf : s.fault <;> simp [flagsWord, hc, hf]
  · have hlt : s.configured.toNat + 2 * s.fault.toNat < 2 ^ b := by
      have hc := s.configured.toNat_lt
      have hf := s.fault.toNat_lt
      have hpow : 2 ^ 2 ≤ 2 ^ b := Nat.pow_le_pow_right (by decide) hb
      omega
    simp [flagsWord, BitVec.getLsbD_ofNat, Nat.testBit_lt_two_pow hlt]

/-- Settles O9: the registers one by one, and a write that is not one of `CMD`. -/
theorem hostRegisterAccess : Obligations.HostRegisterAccess := by
  refine ⟨fun s no rest hh => ⟨readRegister s no, step_of_host hh, ?_, ?_, ?_, ?_, ?_, ?_, ?_⟩,
    fun s no value rest hh hno => ?_⟩
  · rintro rfl
    exact BitVec.toNat_setWidth_of_le (by decide)
  · rintro rfl
    rfl
  · rintro rfl
    exact BitVec.toNat_setWidth_of_le (by decide)
  · rintro rfl
    exact BitVec.toNat_setWidth_of_le (by decide)
  · rintro rfl
    cases hv : s.cfgVariant <;> simp [readRegister, variantCode, hv]
  · rintro rfl
    exact getLsbD_flagsWord s
  · exact readRegister_unreadable s
  · rw [step_of_host hh]
    exact if_neg hno

/-- Settles O10: a write inside `OPB`, a write beyond it, a read. -/
theorem hostOperandBufferAccess : Obligations.HostOperandBufferAccess := by
  refine ⟨fun s a b rest hh => ?_, fun s a rest hh => step_of_host hh, fun s a => opbByte_beyond⟩
  rw [step_of_host hh]
  by_cases ha : a < s.params.opbCapacity
  · refine ⟨Memory.write Config.opbBlank s.opb a b, congrArg _ (if_pos ha), fun a' => ?_, by omega⟩
    simp only [ha, and_true]
    exact opbByte_write s a b a' ha
  · refine ⟨s.opb, congrArg _ (if_neg ha), fun a' => ?_, fun _ => rfl⟩
    rw [if_neg fun h => ha h.2]

/-! ## The frame of a command

What a command leaves unchanged outside `FB`: the three forms that its change of the state can take, and from them
the statements about commands. -/

section drawn
variable {s u : State} (h : Drawn s u)
include h

theorem Drawn.cfgW_eq : u.cfgW = s.cfgW := by rw [h.same]
theorem Drawn.cfgH_eq : u.cfgH = s.cfgH := by rw [h.same]
theorem Drawn.cfgVariant_eq : u.cfgVariant = s.cfgVariant := by rw [h.same]
theorem Drawn.configured_eq : u.configured = s.configured := by rw [h.same]
theorem Drawn.fault_eq : u.fault = s.fault := by rw [h.same]
theorem Drawn.result_eq : u.result = s.result := by rw [h.same]
theorem Drawn.opb_eq : u.opb = s.opb := by rw [h.same]
theorem Drawn.params_eq : u.params = s.params := by rw [h.same]
theorem Drawn.host_eq : u.host = s.host := by rw [h.same]
theorem Drawn.resets_eq : u.resets = s.resets := by rw [h.same]
theorem Drawn.reads_eq : u.reads = s.reads := by rw [h.same]

theorem Drawn.sends_only_added : s.sends <+: u.sends := by
  obtain ⟨new, e, -⟩ := h.sent
  exact ⟨new, e.symm⟩

/-- A command that is abandoned counts as a reset. -/
theorem Drawn.resets_afterReset_ne : u.afterReset.resets ≠ s.resets := by
  rw [afterReset_resets, h.resets_eq]
  exact Nat.succ_ne_self _

end drawn

/-- The frame of a command in three cases: it has drawn and written `STATUS` and `RESULT` at most; or it is an INIT
of an engine not yet configured, which writes the configuration, the flags, `STATUS` and `FB` at most; or a reset
has abandoned it. -/
theorem Ended.frame {P : State → Prop} {s t : State} {i : Instr} (h : Ended P s t i) :
    (∃ u, Drawn s u ∧ t = { u with status := t.status, result := t.result }) ∨
    ((∃ w h v, i = .init w h v) ∧ s.configured = false ∧
      t = { s with
        cfgW := t.cfgW, cfgH := t.cfgH, cfgVariant := t.cfgVariant, configured := t.configured,
        fault := t.fault, status := t.status, fb := t.fb }) ∨
    (∃ u, Drawn s u ∧ t = u.afterReset) := by
  cases h with
  | rejected e _ ht => exact .inl ⟨s, .refl s, by rw [ht]; rfl⟩
  | allocFailed hc ht => exact .inr (.inl ⟨⟨_, _, _, rfl⟩, hc, by rw [ht]; rfl⟩)
  | constructed hc _ _ _ _ ht => exact .inr (.inl ⟨⟨_, _, _, rfl⟩, hc, by rw [ht]; rfl⟩)
  | answered b a _ ht => exact .inl ⟨s, .refl s, by rw [ht]; rfl⟩
  | drawn u hu _ _ ht => exact .inl ⟨u, hu, by rw [ht]; rfl⟩
  | drawnString u n hu _ ht => exact .inl ⟨u, hu, by rw [ht]; rfl⟩
  | failed u hu _ _ ht => exact .inl ⟨u, hu, by rw [ht]; rfl⟩
  | abandoned u hu ht _ => exact .inr (.inr ⟨u, hu, ht⟩)

/-- No command changes the host's moves or the parameters, not even one that is abandoned. -/
theorem exec_host_params {i : Instr} {s t : State} (h : exec i s = .next t) :
    t.host = s.host ∧ t.params = s.params := by
  rcases (exec_ended h).frame with ⟨u, hu, ht⟩ | ⟨-, -, ht⟩ | ⟨u, hu, ht⟩ <;> rw [ht]
  · exact ⟨hu.host_eq, hu.params_eq⟩
  · exact ⟨rfl, rfl⟩
  · exact ⟨hu.host_eq, hu.params_eq⟩

/-- The configuration and the flags change only in an INIT of an engine not yet configured, and by a reset (R25,
R26, R29). -/
theorem exec_keeps_configuration {i : Instr} {s t : State} (h : exec i s = .next t) (hr : t.resets = s.resets)
    (hi : (∀ w h v, i ≠ .init w h v) ∨ s.configured = true) :
    t.cfgW = s.cfgW ∧ t.cfgH = s.cfgH ∧ t.cfgVariant = s.cfgVariant ∧ t.configured = s.configured ∧
    t.fault = s.fault := by
  rcases (exec_ended h).frame with ⟨u, hu, ht⟩ | ⟨⟨w, h, v, rfl⟩, hc, -⟩ | ⟨u, hu, rfl⟩
  · rw [ht]
    exact ⟨hu.cfgW_eq, hu.cfgH_eq, hu.cfgVariant_eq, hu.configured_eq, hu.fault_eq⟩
  · simp [hc] at hi
  · exact absurd hr hu.resets_afterReset_ne

/-- Settles O39, by the three cases of a command's frame. -/
theorem commandsKeepConfigurationAndOperands : Obligations.CommandsKeepConfigurationAndOperands := by
  intro i s t h hr
  obtain ⟨hhost, hparams⟩ := exec_host_params h
  have rest : t.opb = s.opb ∧ t.reads = s.reads ∧ s.sends <+: t.sends ∧ t.transport <:+ s.transport := by
    rcases (exec_ended h).frame with ⟨u, hu, ht⟩ | ⟨-, -, ht⟩ | ⟨u, hu, rfl⟩
    · rw [ht]
      exact ⟨hu.opb_eq, hu.reads_eq, hu.sends_only_added, hu.took⟩
    · rw [ht]
      exact ⟨rfl, rfl, ⟨[], List.append_nil _⟩, List.suffix_rfl⟩
    · exact absurd hr hu.resets_afterReset_ne
  obtain ⟨hopb, hreads, hsends, htransport⟩ := rest
  exact ⟨hopb, hparams, hhost, hreads, hsends, htransport,
    fun hi => exec_keeps_configuration h hr (.inl hi)⟩

/-- Settles O38: of the ways in which a command ends, two write `RESULT`, and both end with OK. -/
theorem resultIsWrittenOnSuccessOnly : Obligations.ResultIsWrittenOnSuccessOnly := by
  intro i s t h hr hne
  cases exec_ended h with
  | answered b a hi ht =>
    rw [ht]
    rcases hi with hi | hi | hi
    · exact ⟨rfl, .inl hi⟩
    · exact ⟨rfl, .inr (.inl hi)⟩
    · exact ⟨rfl, .inr (.inr (.inl hi))⟩
  | drawnString u n hu _ ht =>
    rw [ht]
    exact ⟨rfl, .inr (.inr (.inr ⟨_, _, _, _, _, _, rfl⟩))⟩
  | rejected e _ ht => exact absurd (congrArg State.result ht) hne
  | allocFailed _ ht => exact absurd (congrArg State.result ht) hne
  | constructed _ _ _ _ _ ht => exact absurd (congrArg State.result ht) hne
  | drawn u hu _ _ ht => exact absurd ((congrArg State.result ht).trans hu.result_eq) hne
  | failed u hu _ _ ht => exact absurd ((congrArg State.result ht).trans hu.result_eq) hne
  | abandoned u hu ht _ => exact absurd (ht ▸ hr) hu.resets_afterReset_ne

/-- Settles O35: the check stands first in the rule of every command but INIT. -/
theorem unconfiguredEngineAcceptsOnlyInit : Obligations.UnconfiguredEngineAcceptsOnlyInit := by
  intro i s hc hi
  cases i with
  | init w h v => exact absurd rfl (hi w h v)
  | clear v => exact if_pos hc
  | getpx x y => exact if_pos hc
  | wrreg x y w h => exact if_pos hc
  | dchar x y c font m => exact if_pos hc
  | dstr x y l sp font m => exact if_pos hc
  | xlate row => exact if_pos hc
  | pageof y => exact if_pos hc

/-! ## The frame of a step

What a step leaves unchanged: the fault state, the configuration, the host's later moves. -/

/-- A step of a faulted engine is a reset by the host, or changes nothing but the host's moves, `OPB` and what the
host has read (R26, R226). -/
theorem step_faulted {s t : State} (hf : s.fault = true) (h : step s = .next t) :
    t = { s with host := t.host, opb := t.opb, reads := t.reads } ∨
    ∃ rest, s.host = .reset :: rest ∧ t = (s.withHost rest).afterReset := by
  cases step_next h with
  | idle _ ht => exact .inl (by rw [ht])
  | command _ _ _ _ hf' => simp [hf] at hf'
  | illegal _ _ _ hf' => simp [hf] at hf'
  | ignored _ _ _ _ ht => exact .inl (by rw [ht]; rfl)
  | read _ _ _ _ _ ht => exact .inl (by rw [ht]; rfl)
  | wroteOpb _ _ _ _ _ ht => exact .inl (by rw [ht]; rfl)
  | reset rest hh ht => exact .inr ⟨rest, hh, ht⟩

/-- Settles O8: a word is ignored before it is decoded; every other step is one of `step_faulted`. -/
theorem faultedEngineIgnoresEveryCommand : Obligations.FaultedEngineIgnoresEveryCommand := by
  refine ⟨fun s cw rest hh hf => ?_, fun s t hf h hr => ?_, fun s t hf h ht0 => ?_⟩
  · rw [step_of_host hh]
    exact if_pos hf
  · rcases step_faulted hf h with ht | ⟨rest, -, rfl⟩
    · exact ht
    · simp at hr
  · rcases step_faulted hf h with ht | ⟨rest, hh, -⟩
    · have : t.fault = s.fault := by rw [ht]
      simp [this, hf] at ht0
    · exact ⟨rest, hh⟩

/-- A step takes the host's first move and keeps the parameters. -/
theorem step_host_params {s t : State} (h : step s = .next t) : t.host = s.host.tail ∧ t.params = s.params := by
  cases step_next h with
  | idle hh ht => simp [ht, hh]
  | command _ _ _ hh _ _ ht => simpa [hh] using exec_host_params ht
  | illegal _ _ hh _ ht => simp [ht, hh]
  | ignored _ _ hh _ ht => simp [ht, hh]
  | read _ _ _ hh _ ht => simp [ht, hh]
  | wroteOpb _ _ _ hh _ ht => simp [ht, hh]
  | reset _ hh ht => simp [ht, hh]

/-- Settles O11: the moves of a step, and the idle one. -/
theorem eachStepTakesOneHostMove : Obligations.EachStepTakesOneHostMove :=
  ⟨fun _ _ h => (step_host_params h).1, fun _ => step_of_host_nil⟩

/-- Settles O44: of the steps only a command and a reset could change the configuration. -/
theorem configurationIsImmutable : Obligations.ConfigurationIsImmutable := by
  refine ⟨fun s t h => (step_host_params h).2, fun s t h hr hc => ?_⟩
  cases step_next h with
  | idle _ ht => simp [ht, hc]
  | command _ rest _ _ _ _ ht =>
    obtain ⟨hw, hh, hv, hconf, -⟩ := exec_keeps_configuration ht hr (.inr hc)
    exact ⟨hconf.trans hc, hw, hh, hv⟩
  | illegal _ _ _ _ ht => simp [ht, hc]
  | ignored _ _ _ _ ht => simp [ht, hc]
  | read _ _ _ _ _ ht => simp [ht, hc]
  | wroteOpb _ _ _ _ _ ht => simp [ht, hc]
  | reset _ _ ht => simp [ht] at hr

/-! ## The frame on `FB`

Which bytes of `FB` a command can change. A property of the state that neither sending nor the writes of
`STATUS` and `RESULT` touch holds after a command if the command's own stores keep it; the statements use it for the value of one
byte. -/

/-- A property that only a write of `FB` or of the geometry can break. -/
structure storeStable (P : State → Prop) : Prop where
  sends  : sendStable P
  status : ∀ u e, P u → P (u.withStatus e)
  result : ∀ u b a, P u → P (u.withResult b a)

/-- Such a property holds after every command but INIT that is not abandoned. -/
theorem Ended.keeps {P : State → Prop} (hP : storeStable P) {s t : State} {i : Instr} (h : Ended P s t i)
    (hs : P s) (hr : t.resets = s.resets) (hi : ∀ w h v, i ≠ .init w h v) : P t := by
  cases h with
  | rejected e _ ht => exact ht ▸ hP.status _ _ hs
  | allocFailed | constructed => exact absurd rfl (hi _ _ _)
  | answered b a _ ht => exact ht ▸ hP.status _ _ (hP.result _ _ _ hs)
  | drawn u _ hp _ ht => exact ht ▸ hP.status _ _ hp
  | drawnString u n _ hp ht => exact ht ▸ hP.status _ _ (hP.result _ _ _ hp)
  | failed u _ hp _ ht => exact ht ▸ hP.status _ _ hp
  | abandoned u hu ht _ => exact absurd (ht ▸ hr) hu.resets_afterReset_ne

/-- The stores of a command keep `P`: the fill of CLEAR, the merge of WRREG and DCHAR, every glyph of a DSTR. INIT,
which writes the geometry, is left out. -/
def storesKeep (P : State → Prop) (s : State) : Instr → Prop
  | .init .. => False
  | .clear v => P (s.withFb (Memory.fill Config.fbBlank s.fb s.fbSize (if v then 0xFF else 0x00)))
  | .wrreg x y w h => 0 < w → 0 < h → x + w ≤ s.width → P (s.withFb (mergeRegion s.bpr x y w h s.opbByte s.fb))
  | .dchar x y c font m => ∀ f, fontOf s.params.fonts font = some f → fontWf f = true → x + f.fw ≤ s.width →
      P (s.withGlyph f c m x y)
  | .dstr x y _ _ font m => ∀ f c cur u, fontOf s.params.fonts font = some f → fontWf f = true → Drawn s u →
      P u → x ≤ cur → cur + f.fw ≤ s.width → P (u.withGlyph f c m cur y)
  | .getpx .. | .xlate .. | .pageof .. => True

/-- A command that is not abandoned keeps what its stores keep. -/
theorem exec_keeps {P : State → Prop} (hP : storeStable P) {i : Instr} {s t : State} (h : exec i s = .next t)
    (hr : t.resets = s.resets) (hs : P s) (stores : storesKeep P s i) : P t := by
  refine Ended.keeps hP (exec_next hP.sends h hs ?_ ?_ ?_ ?_) hs hr ?_
  · rintro v rfl
    exact stores
  · rintro x y w h rfl hw hh hx -
    exact stores hw hh hx
  · rintro x y c font m f rfl hf hwf hx -
    exact stores f hf hwf hx
  · rintro x y l sp font m f c cur u rfl hf hwf hu hp hcur hx -
    exact stores f c cur u hf hwf hu hp hcur hx
  · rintro w h v rfl
    exact stores

/-- A byte of `FB` outside the allocated part is no one's to change (R33). -/
theorem fbByte_withFb_beyond (s : State) (m : Memory) {a : Nat} (ha : s.fbSize ≤ a) :
    (s.withFb m).fbByte a = s.fbByte a := by
  simp [State.fbByte, Nat.not_lt.mpr ha]

/-- A region merge inside the rows stores into the bytes `byte_start .. byte_end` of the region's rows only (R132). -/
theorem fbByte_merge_outside {s : State} {x y width height : Nat} {source : Nat → Byte} (hw : 0 < width)
    (hx : x + width ≤ s.width) {a : Nat}
    (ha : ∀ j r, x / 8 ≤ j → j ≤ (x + width - 1) / 8 → y ≤ r → r < y + height →
      a ≠ fbIndex s.bpr j r) :
    (s.withFb (mergeRegion s.bpr x y width height source s.fb)).fbByte a = s.fbByte a := by
  by_cases hsize : a < s.fbSize
  · obtain ⟨j, r, hj, -, rfl⟩ := exists_fbIndex hsize
    have hfit : (x + width - 1) / 8 < s.bpr := by
      have := bpr_covers s
      omega
    rw [fbByte_eq (by simpa using hsize), fbByte_eq hsize, withFb_fb, fbRead_mergeRegion hw hfit hj,
      if_neg fun ⟨hlo, hhi, hy, hy'⟩ => ha j r hlo hhi hy hy' rfl]
  · exact fbByte_withFb_beyond s _ (Nat.not_lt.mp hsize)

/-- GETPX, XLATE and PAGEOF write `STATUS` and `RESULT` at most (R115, R186, R188). -/
theorem Ended.of_answering {P : State → Prop} {s t : State} {i : Instr} (h : Ended P s t i)
    (hi : (∃ x y, i = .getpx x y) ∨ (∃ row, i = .xlate row) ∨ ∃ y, i = .pageof y) :
    t = { s with status := t.status, result := t.result } := by
  cases h with
  | rejected e _ ht => rw [ht]; rfl
  | answered b a _ ht => rw [ht]; rfl
  | allocFailed | constructed | drawnString => simp at hi
  | drawn u _ _ hi' | failed u _ _ hi' | abandoned u _ _ hi' =>
    rcases hi with ⟨_, _, rfl⟩ | ⟨_, rfl⟩ | ⟨_, rfl⟩ <;> simp at hi'

/-- What is said of the contents of `FB` alone can change by stores only. -/
theorem storeStable_fb (Q : Memory → (Nat → Byte) → Prop) : storeStable fun u => Q u.fb u.fbByte :=
  ⟨fun _ _ _ _ h => h, fun _ _ h => h, fun _ _ _ h => h⟩

/-- Settles O40, command by command: the stores of each are a fill or region merges. -/
theorem framebufferStoresStayInTheirBytes : Obligations.FramebufferStoresStayInTheirBytes := by
  refine ⟨fun i s t hi h => ?answering, fun s t value h hr a ha => ?clear,
    fun s t x y width height h hr => ⟨fun h0 => ?emptyRectangle, fun a ha => ?wrreg⟩,
    fun s t x y c font mode f hf h hr a ha => ?dchar, fun s t x y len spacing font mode f hf h hr a ha => ?dstr⟩
  case answering =>
    rw [(exec_ended h).of_answering hi]
    exact ⟨rfl, rfl⟩
  case clear =>
    refine exec_keeps (storeStable_fb fun fb read => read a = s.fbByte a ∧ fbRead fb a = fbRead s.fb a) h hr
      ⟨rfl, rfl⟩ ⟨fbByte_withFb_beyond s _ ha, ?_⟩
    rw [withFb_fb, fbRead_fill, if_neg (Nat.not_lt.mpr ha)]
  case emptyRectangle =>
    exact exec_keeps (storeStable_fb fun fb _ => fb = s.fb) h hr rfl fun hw hh => absurd h0 (by omega)
  case wrreg =>
    exact exec_keeps (storeStable_fb fun _ read => read a = s.fbByte a) h hr rfl fun hw _ hx =>
      fbByte_merge_outside hw hx ha
  case dchar =>
    refine exec_keeps (storeStable_fb fun _ read => read a = s.fbByte a) h hr rfl fun f' hf' hwf hx => ?_
    cases hf.symm.trans hf'
    exact fbByte_merge_outside (fontWf_pos hwf).1 hx ha
  case dstr =>
    refine exec_keeps (storeStable_fb fun _ read => read a = s.fbByte a) h hr rfl
      fun f' c cur u hf' hwf hu hp hcur hx => ?_
    cases hf.symm.trans hf'
    obtain ⟨gw, -, gb, -⟩ := hu.geometry
    obtain ⟨hfw, -⟩ := fontWf_pos hwf
    refine (fbByte_merge_outside hfw (by omega) fun j r hlo hhi hy hy' => ?_).trans hp
    have := bpr_covers s
    rw [gb]
    exact ha j r (by omega) (by omega) hy hy'

end Sys2Proof.Machine
end

section
/-! PROOFS. The statements about what a command stores into `FB`, and what a rejected one does not. -/

namespace Sys2Proof.Machine

/-! ## A region written twice

The merge gives the region's bytes what they already hold (R57), so the second WRREG reads the same rows. -/

/-- A record shows the geometry, the variant and the bytes of `FB`, and nothing else of the state (R203). -/
theorem rowRecord_congr {s t : State} (hfb : ∀ a, t.fbByte a = s.fbByte a) (hb : t.bpr = s.bpr)
    (hh : t.height = s.height) (hv : t.cfgVariant = s.cfgVariant) : rowRecord t = rowRecord s := by
  funext r
  simp [rowRecord, rowBytes, hv, hh, hb, hfb]

/-- The raster after WRREG's merge and before its refresh (R136). -/
def State.withRegion (s : State) (x y width height : Nat) : State :=
  s.withFb (mergeRegion s.bpr x y width height s.opbByte s.fb)

/-- The merge is idempotent (R57): in the region both give the source's pixel, and outside it neither changes
anything (R131). -/
theorem fbByte_withRegion_twice {s : State} {x y width height : Nat} (hw : 0 < width)
    (hx : x + width ≤ s.width) (a : Nat) :
    ((s.withRegion x y width height).withRegion x y width height).fbByte a
      = (s.withRegion x y width height).fbByte a := by
  by_cases ha : a < s.fbSize
  · refine fbByte_of_pix (s := s.withRegion x y width height)
      (t := (s.withRegion x y width height).withRegion x y width height) rfl (fun c r hc hr => ?_) ha
    have once := pix_merge (y := y) (height := height) (source := s.opbByte) hw hx hc hr
    have twice := pix_merge (s := s.withRegion x y width height) (y := y) (height := height)
      (source := s.opbByte) hw hx hc hr
    by_cases hin : x ≤ c ∧ c < x + width ∧ y ≤ r ∧ r < y + height
    · exact (twice.trans (if_pos hin)).trans (once.trans (if_pos hin)).symm
    · exact twice.trans (if_neg hin)
  · exact fbByte_withFb_beyond (s.withRegion x y width height) _ (Nat.not_lt.mp ha)

/-- What WRREG leaves when every record is acknowledged: the merged raster, its rows sent. -/
def State.afterWrreg (s : State) (x y width height : Nat) (rest : List TransportEvent) : State :=
  ((s.withRegion x y width height).afterSends
    ((List.range' y height).map (rowRecord (s.withRegion x y width height))) rest s.ackDraws).withStatus .ok

/-- WRREG of a rectangle that is not empty, past its checks, every record acknowledged (R136, R203). -/
theorem exec_wrreg_acknowledged {s : State} {x y width height : Nat} {rest : List TransportEvent}
    (hc : s.configured = true) (hcap : height * ceil8 width ≤ s.params.opbCapacity)
    (hx : x + width ≤ s.width) (hy : y + height ≤ s.height) (hw : 0 < width) (hh : 0 < height)
    (hack : s.Acknowledged height rest) :
    exec (.wrreg x y width height) s = .next (s.afterWrreg x y width height rest) := by
  have hrows : (s.withRegion x y width height).Acknowledged (List.range' y height).length rest := by
    rwa [List.length_range']
  rw [exec_wrreg_inside hc hcap hx hy hw hh]
  exact congrArg finish (flushEach_ok hrows)

section afterWrreg
variable (s : State) (x y width height : Nat) (rest : List TransportEvent)

@[simp] theorem afterWrreg_sends : (s.afterWrreg x y width height rest).sends
    = s.sends ++ (List.range' y height).map (rowRecord (s.withRegion x y width height)) := rfl

@[simp] theorem afterWrreg_fbByte (a : Nat) :
    (s.afterWrreg x y width height rest).fbByte a = (s.withRegion x y width height).fbByte a := rfl

end afterWrreg

/-- After a WRREG the same merge changes no byte. -/
theorem fbByte_withRegion_afterWrreg {s : State} {x y width height : Nat} {rest : List TransportEvent}
    (hw : 0 < width) (hx : x + width ≤ s.width) (a : Nat) :
    ((s.afterWrreg x y width height rest).withRegion x y width height).fbByte a
      = (s.withRegion x y width height).fbByte a :=
  fbByte_withRegion_twice hw hx a

/-- Settles O21: the second WRREG merges into the raster that the first has left, which its merge does not change,
so it sends the same rows. -/
theorem writingARegionTwiceIsIdempotent : Obligations.WritingARegionTwiceIsIdempotent := by
  intro s x y width height rest hc hcap hx hy hw hh hack
  have hfirst : s.Acknowledged height (List.replicate height (.ack .ok) ++ rest) := by
    rw [State.Acknowledged, ← List.append_assoc, List.replicate_append_replicate]
    exact hack
  have same := fbByte_withRegion_afterWrreg (y := y) (height := height)
    (rest := List.replicate height (.ack .ok) ++ rest) hw hx
  refine ⟨_, _, exec_wrreg_acknowledged hc hcap hx hy hw hh hfirst,
    exec_wrreg_acknowledged hc hcap hx hy hw hh rfl, fun a => ?bytes, _, afterWrreg_sends .., ?records, by simp⟩
  case bytes => rw [afterWrreg_fbByte, same, afterWrreg_fbByte]
  case records => rw [← rowRecord_congr same rfl rfl rfl, afterWrreg_sends]

/-! ## A rejected command -/

/-- Settles O36: of the ways in which a command ends, only two leave the status of a rejection; the others end with OK,
TRANSPORT_FAILURE or the status after a reset, which is OK's. -/
theorem rejectedCommandLeavesNoTrace : Obligations.RejectedCommandLeavesNoTrace := by
  rintro i s t h ⟨hok, hfailure⟩
  cases exec_ended h with
  | rejected e _ ht => rw [ht]; exact ⟨rfl, .inl rfl⟩
  | allocFailed _ ht => rw [ht]; exact ⟨rfl, .inr ⟨rfl, rfl⟩⟩
  | constructed _ _ _ _ _ ht => exact absurd (congrArg State.status ht) hok
  | answered b a _ ht => exact absurd (congrArg State.status ht) hok
  | drawn u _ _ _ ht => exact absurd (congrArg State.status ht) hok
  | drawnString u n _ _ ht => exact absurd (congrArg State.status ht) hok
  | failed u _ _ _ ht => exact absurd (congrArg State.status ht) hfailure
  | abandoned u _ ht _ => exact absurd (congrArg State.status ht) hok

end Sys2Proof.Machine
end

section
/-! PROOFS. The statements about the command word: its fields, the decoder and the encoder, the opcode map. -/

namespace Sys2Proof

/-! ## The decoder and the encoder

The decoder reads a command from exactly one tuple of fields, the one that the command's format writes. Both round
trips follow, since a word and its fields are each other's inverse. -/

/-- The decoder reads a command from the fields of its format, and from no others (R84, R88). -/
theorem decodeFields_ok {f : Fields} {i : Instr} : decodeFields f = .ok i ↔ fieldsOfInstr i = f := by
  constructor
  · intro h
    obtain ⟨op, font, mode, ch, h', w, y, x⟩ := f
    unfold decodeFields at h
    split at h
    case h_9 => cases h
    all_goals
      obtain ⟨hreserved, a, ha, rfl⟩ := legalIf_ok.mp h
      simp_all [fieldsOfInstr, variantOfField_some, valueOfField_some, modeOfField_some]
  · rintro rfl
    cases i with
    | init w h v => exact legalIf_ok.mpr ⟨by simp [fieldsOfInstr], v, variantOfField_some.mpr rfl, rfl⟩
    | clear v => exact legalIf_ok.mpr ⟨by simp [fieldsOfInstr], v, valueOfField_some.mpr rfl, rfl⟩
    | dchar x y c font m => exact legalIf_ok.mpr ⟨by simp [fieldsOfInstr], m, modeOfField_some.mpr rfl, rfl⟩
    | dstr x y l sp font m => exact legalIf_ok.mpr ⟨by simp [fieldsOfInstr], m, modeOfField_some.mpr rfl, rfl⟩
    | getpx | wrreg | xlate | pageof => rfl

/-- The decoder reads a command from a word of its fields, and from no other word (R84, R88). -/
theorem decode_ok {cw : CmdWord} {i : Instr} : decode cw = .ok i ↔ fieldsOfInstr i = fieldsOf cw :=
  decodeFields_ok

/-- A command whose fields fit is well formed. -/
theorem wf_of_fieldsOfInstr_fit {i : Instr} (h : (fieldsOfInstr i).fit) : i.wf = true := by
  cases i <;> simp_all [Instr.wf, fieldsOfInstr, Fields.fit, fitsCoord, fitsChar, fitsFont]

/-- Settles O3: the word of a well-formed command has the fields of the command's format. -/
theorem decodeOfEncodeIsTheCommand : Obligations.DecodeOfEncodeIsTheCommand :=
  fun i hi => decode_ok.mpr (Laws.WordFields.all i hi).symm

/-- Settles O4: the command's fields are the word's, so they fit and spell the word. -/
theorem encodeOfDecodeIsTheWord : Obligations.EncodeOfDecodeIsTheWord := by
  intro cw i h
  have hf : fieldsOfInstr i = fieldsOf cw := decode_ok.mp h
  exact ⟨wf_of_fieldsOfInstr_fit (hf ▸ fieldsOf_fit cw), (congrArg wordOf hf).trans (wordOf_fieldsOf cw)⟩

/-! ## The opcode map

A mask acts on the fields one by one, so a row's match and mask say which fields are fixed. -/

/-- No two words have the same fields (R81). -/
theorem fieldsOf_injective : Function.Injective fieldsOf :=
  Function.LeftInverse.injective wordOf_fieldsOf

/-- The fields of a masked word are the masked fields. -/
theorem fieldsOf_and (a b : CmdWord) : fieldsOf (a &&& b) =
    ⟨(fieldsOf a).op &&& (fieldsOf b).op, (fieldsOf a).font &&& (fieldsOf b).font,
     (fieldsOf a).mode &&& (fieldsOf b).mode, (fieldsOf a).ch &&& (fieldsOf b).ch,
     (fieldsOf a).h &&& (fieldsOf b).h, (fieldsOf a).w &&& (fieldsOf b).w,
     (fieldsOf a).y &&& (fieldsOf b).y, (fieldsOf a).x &&& (fieldsOf b).x⟩ := by
  simp only [fieldsOf, BitVec.toNat_and, Nat.and_div_two_pow, Nat.and_mod_two_pow]

/-- A mask that covers a field keeps it; the mask of the one-bit enumerations keeps the upper bit of `mode`. -/
theorem Fields.fit.masked {f : Fields} (hf : f.fit) :
    f.op &&& 15 = f.op ∧ f.font &&& 3 = f.font ∧ f.mode &&& 3 = f.mode ∧ (f.mode &&& 2 = 0 ↔ f.mode < 2) ∧
    f.ch &&& 255 = f.ch ∧ f.h &&& 4095 = f.h ∧ f.w &&& 4095 = f.w ∧ f.y &&& 4095 = f.y ∧
    f.x &&& 4095 = f.x := by
  obtain ⟨hop, hfont, hmode, hch, hh, hw, hy, hx⟩ := hf
  have covers {n k : Nat} (h : n < 2 ^ k) : n &&& (2 ^ k - 1) = n := Nat.and_two_pow_sub_one_of_lt_two_pow h
  have upper : ∀ n < 4, (n &&& 2 = 0 ↔ n < 2) := by decide
  exact ⟨covers (k := 4) hop, covers (k := 2) hfont, covers (k := 2) hmode, upper _ hmode, covers (k := 8) hch,
    covers (k := 12) hh, covers (k := 12) hw, covers (k := 12) hy, covers (k := 12) hx⟩

/-- A word selects a row of the opcode map when its masked fields are the match's, and its mode is not 3 where the
row excludes that (R85). -/
theorem selects_iff {cw : CmdWord} {row : OpcodeRow} :
    selects cw row = true ↔
      fieldsOf (cw &&& row.mask) = fieldsOf row.matchVal ∧ (row.notMode3 = true → (fieldsOf cw).mode ≠ 3) := by
  rw [fieldsOf_injective.eq_iff]
  cases h : row.notMode3 <;> simp [selects, h]

/-! The numbers that a field with an enumeration may hold (R83). -/

theorem exists_variantField {n : Nat} : (∃ v, variantField v = n) ↔ n < 2 := by
  constructor
  · rintro ⟨_ | _, rfl⟩ <;> decide
  · intro h
    interval_cases n
    exacts [⟨.linear, rfl⟩, ⟨.interleaved, rfl⟩]

theorem exists_modeField {n : Nat} : (∃ m, modeField m = n) ↔ n < 3 := by
  constructor
  · rintro ⟨_ | _ | _, rfl⟩ <;> decide
  · intro h
    interval_cases n
    exacts [⟨.overwrite, rfl⟩, ⟨.invert, rfl⟩, ⟨.xor, rfl⟩]

/-- A command is of one of the eight formats (R84). -/
theorem Instr.exists_iff {P : Instr → Prop} : (∃ i, P i) ↔
    (∃ w h v, P (.init w h v)) ∨ (∃ v, P (.clear v)) ∨ (∃ x y, P (.getpx x y)) ∨ (∃ x y w h, P (.wrreg x y w h)) ∨
    (∃ x y c f m, P (.dchar x y c f m)) ∨ (∃ x y l s f m, P (.dstr x y l s f m)) ∨
    (∃ r, P (.xlate r)) ∨ ∃ y, P (.pageof y) := by
  constructor
  · rintro ⟨i, hi⟩
    cases i <;> grind
  · grind

/-- Settles O5, row by row: the match and the mask fix the fields that the format fixes, and leave `mode` the numbers
of its enumeration. -/
theorem opcodeMapAgreesWithDecode : Obligations.OpcodeMapAgreesWithDecode := by
  intro cw row hrow
  simp only [selects_iff, fieldsOf_and, decode_ok, Instr.exists_iff]
  have hfit := fieldsOf_fit cw
  generalize fieldsOf cw = f at hfit ⊢
  obtain ⟨hop, hfont, hmode, hupper, hch, hh, hw, hy, hx⟩ := hfit.masked
  obtain ⟨op, font, mode, ch, h, w, y, x⟩ := f
  obtain ⟨-, -, hmode4 : mode < 4, -⟩ := hfit
  simp only [opcodeRows, List.mem_cons, List.not_mem_nil, or_false] at hrow
  rcases hrow with rfl | rfl | rfl | rfl | rfl | rfl | rfl | rfl <;>
    simp [fieldsOf, mnemonicOf, fieldsOfInstr, exists_variantField, exists_modeField, hop, hfont, hmode, hupper, hch,
      hh, hw, hy, hx] <;>
    omega

/-! ## Fixed words and bit positions -/

/-- Settles O1: the decoder is run on each word. -/
theorem decodesTheWorkedEncodings : Obligations.DecodesTheWorkedEncodings := by
  unfold Obligations.DecodesTheWorkedEncodings
  decide

/-- Settles O2: the bits from `k` on are the quotient by `2 ^ k`, and the places cover the word's 64 bits. -/
theorem fieldsStandAtTheirPositions : Obligations.FieldsStandAtTheirPositions := by
  intro cw
  have hcw := cw.isLt
  simp only [fieldsOf, BitVec.extractLsb'_toNat, Nat.shiftRight_eq_div_pow, true_and]
  omega

end Sys2Proof
end

section
/-! PROOFS. The statements about the Framebuffer: its commands INIT, CLEAR and GETPX, the invariant and the pad bits. -/

namespace Sys2Proof.Machine

/-! ## What every step keeps

The invariant, first of the writes of the state one by one, then of a command by the ways in which it ends, then of
a step. -/

/-- A state with every register, flag and memory as after a reset meets the invariant (R250). -/
theorem State.inv_of_cleared {s : State} (hw : s.width = 0) (hh : s.height = 0) (hv : s.cfgVariant = .linear)
    (hc : s.configured = false) (hf : s.fault = false) (hst : s.status = statusCode .ok) (hfb : s.fb = [])
    (hopb : s.opb = []) : s.Inv where
  raster := ⟨by simp [hc], fun _ => ⟨hw, hh, hv⟩⟩
  memory := by simp [State.MemoryInv, Memory.wf, hfb, hopb]
  fault := by simp [State.FaultInv, hf]
  status := by rw [hst]; unfold writtenCode; decide

theorem afterReset_inv (s : State) : s.afterReset.Inv := State.inv_of_cleared rfl rfl rfl rfl rfl rfl rfl rfl

/-- Settles O45: the reset state is cleared. -/
theorem resetStateMeetsTheInvariant : Obligations.ResetStateMeetsTheInvariant :=
  State.inv_of_cleared rfl rfl rfl rfl rfl rfl rfl rfl

theorem writtenCode_statusCode {e : Status} (he : e ≠ .unsupportedCharacter) : writtenCode (statusCode e) := by
  unfold writtenCode
  cases e with
  | unsupportedCharacter => exact absurd rfl he
  | ok | outOfBounds | transportFailure | allocFailure | badCommand | notConfigured | badConfig | operandRange => decide

/-- Without the fatal fault any code but the reserved one can be written (R26, R220). -/
theorem State.Inv.withStatus {s : State} (h : s.Inv) (hf : s.fault = false) {e : Status}
    (he : e ≠ .unsupportedCharacter) : (s.withStatus e).Inv where
  raster := h.raster
  memory := h.memory
  fault := by simp [State.FaultInv, hf]
  status := writtenCode_statusCode he

theorem State.Inv.withResult {s : State} (h : s.Inv) (b a : Nat) : (s.withResult b a).Inv :=
  ⟨h.raster, h.memory, h.fault, h.status⟩

theorem State.Inv.withHost {s : State} (h : s.Inv) (moves : List HostAction) : (s.withHost moves).Inv :=
  ⟨h.raster, h.memory, h.fault, h.status⟩

theorem State.Inv.withRead {s : State} (h : s.Inv) (d : HostData) : (s.withRead d).Inv :=
  ⟨h.raster, h.memory, h.fault, h.status⟩

/-- A write of `OPB` inside its capacity (R34). -/
theorem State.Inv.withOpb_write {s : State} (h : s.Inv) {a : Nat} (v : Byte) (ha : a < s.params.opbCapacity) :
    (s.withOpb (Memory.write Config.opbBlank s.opb a v)).Inv := by
  obtain ⟨hwf, hbelow, howf, hobelow⟩ := h.memory
  exact ⟨h.raster, ⟨hwf, hbelow, write_wf a v howf,
    write_below (blank := Config.opbBlank) (v := v) hobelow ha⟩, h.fault, h.status⟩

/-- The fatal fault, which only an engine not yet configured can meet (R26). -/
theorem State.Inv.allocFailure {s : State} (h : s.Inv) (hc : s.configured = false) :
    (s.withFault.withStatus .allocFailure).Inv where
  raster := h.raster
  memory := h.memory
  fault := fun _ => ⟨rfl, hc⟩
  status := writtenCode_statusCode (by simp)

/-- Drawing can break the form of `FB` only. -/
theorem Drawn.inv {s u : State} (hu : Drawn s u) (h : s.Inv) (hm : u.MemoryInv) : u.Inv where
  raster := by rw [hu.same]; exact h.raster
  memory := hm
  fault := by rw [hu.same]; exact h.fault
  status := by rw [hu.same]; exact h.status

/-- The raster after CLEAR's fill and before its refresh (R113). -/
def State.filled (s : State) (value : Bool) : State :=
  s.withFb (Memory.fill Config.fbBlank s.fb s.fbSize (if value then 0xFF else 0x00))

/-- The fill keeps the memories' form. -/
theorem State.MemoryInv.filled {s : State} (h : s.MemoryInv) (value : Bool) : (s.filled value).MemoryInv := by
  obtain ⟨hwf, hbelow, hopb⟩ := h
  exact ⟨fill_wf _ _ hwf, fill_below hbelow, hopb⟩

/-- The merge of a rectangle inside the raster keeps the memories' form (R110 (c)). -/
theorem State.MemoryInv.merge {s : State} (h : s.MemoryInv) {x y width height : Nat} {source : Nat → Byte}
    (hw : 0 < width) (hx : x + width ≤ s.width) (hy : y + height ≤ s.height) :
    (s.withFb (mergeRegion s.bpr x y width height source s.fb)).MemoryInv := by
  obtain ⟨hwf, hbelow, hopb⟩ := h
  have hfit : (x + width - 1) / 8 < s.bpr := by
    have := bpr_covers s
    omega
  exact ⟨mergeRegion_wf hwf, mergeRegion_below hfit hy hbelow, hopb⟩

theorem withConfig_fbSize (s : State) {w h : Nat} (v : Variant) (hw : w < 4096) (hh : h < 4096) :
    (s.withConfig w h v).fbSize = h * ceil8 w := by
  rw [State.fbSize, State.bpr, withConfig_width s w h v hw, withConfig_height s w h v hh]

/-- INIT's operands fit their fields (R82). -/
theorem init_wf {w h : Nat} {v : Variant} (hi : (Instr.init w h v).wf = true) : w < 4096 ∧ h < 4096 := by
  simpa [Instr.wf, fitsCoord] using hi

/-- The state that INIT leaves when it builds the raster (R111). -/
def State.afterInit (s : State) (w h : Nat) (v : Variant) : State :=
  ((s.withConfig w h v).withFb (Memory.fill Config.fbBlank s.fb (h * ceil8 w) 0x00)).withStatus .ok

/-- INIT's fill is a fill of the raster whose geometry it has written. -/
theorem afterInit_eq (s : State) {w h : Nat} (v : Variant) (hi : (Instr.init w h v).wf = true) :
    s.afterInit w h v = ((s.withConfig w h v).filled false).withStatus .ok := by
  obtain ⟨hw, hh⟩ := init_wf hi
  rw [State.filled, withConfig_fbSize s v hw hh]
  rfl

/-- Before INIT nothing is listed in `FB`, so the raster that it builds meets the invariant. -/
theorem State.Inv.afterInit {s : State} (h : s.Inv) (hf : s.fault = false) (hc : s.configured = false)
    {width height : Nat} {variant : Variant} (hi : (Instr.init width height variant).wf = true) (hw : 0 < width)
    (hh : 0 < height) (hodd : variant = .interleaved → height % 2 = 0)
    (hcap : height * ceil8 width ≤ s.params.fbCapacity) : (s.afterInit width height variant).Inv := by
  obtain ⟨hw', hh'⟩ := init_wf hi
  have size : (s.withConfig width height variant).fbSize = height * ceil8 width := withConfig_fbSize s _ hw' hh'
  have configured : (s.withConfig width height variant).Inv := by
    obtain ⟨hwf, hbelow, hopb⟩ := h.memory
    obtain ⟨-, hheight, -⟩ := h.raster.2 hc
    have hempty : Memory.below 0 s.fb := by simpa [State.fbSize, hheight] using hbelow
    refine ⟨⟨fun _ => ?_, by simp⟩, ⟨hwf, fun c hcell => absurd (hempty c hcell) (Nat.not_lt_zero _), hopb⟩,
      by simp [State.FaultInv, hf], h.status⟩
    rw [size, withConfig_width s _ _ _ hw', withConfig_height s _ _ _ hh']
    exact ⟨hw, hh, hodd, hcap⟩
  rw [afterInit_eq s variant hi]
  exact State.Inv.withStatus ((Drawn.withFb _ _).inv configured (configured.memory.filled false)) hf (by simp)

/-- A command keeps the memories' form: its stores are a fill of the raster or merges inside it. -/
theorem exec_ended_memory {i : Instr} {s t : State} (h : exec i s = .next t) (hs : s.MemoryInv) :
    Ended State.MemoryInv s t i := by
  refine exec_next (fun _ _ _ _ hu => hu) h hs (fun v _ => hs.filled v)
    (fun x y w h _ hw _ hx hy => hs.merge hw hx hy)
    (fun x y c font m f _ _ hwf hx hy => hs.merge (fontWf_pos hwf).1 hx hy)
    fun x y l sp font m f c cur u _ _ hwf hu hp _ hx hy => ?_
  obtain ⟨gw, gh, -⟩ := hu.geometry
  exact hp.merge (fontWf_pos hwf).1 (gw ▸ hx) (gh ▸ hy)

/-- A well-formed command keeps the invariant of an engine without the fatal fault. -/
theorem exec_keeps_inv {i : Instr} {s t : State} (h : exec i s = .next t) (hs : s.Inv) (hf : s.fault = false)
    (hi : i.wf = true) : t.Inv := by
  have drawn {u : State} (hu : Drawn s u) (hm : u.MemoryInv) : u.Inv ∧ u.fault = false :=
    ⟨hu.inv hs hm, hu.fault_eq.trans hf⟩
  cases exec_ended_memory h hs.memory with
  | rejected e he ht =>
    obtain ⟨-, -, he⟩ := he
    exact ht ▸ hs.withStatus hf he
  | allocFailed hc ht => exact ht ▸ hs.allocFailure hc
  | constructed hc hw hh hodd hcap ht => exact ht ▸ hs.afterInit hf hc hi hw hh hodd hcap
  | answered b a _ ht => exact ht ▸ (hs.withResult b a).withStatus hf (by simp)
  | drawn u hu hm _ ht =>
    obtain ⟨hinv, hfault⟩ := drawn hu hm
    exact ht ▸ hinv.withStatus hfault (by simp)
  | drawnString u n hu hm ht =>
    obtain ⟨hinv, hfault⟩ := drawn hu hm
    exact ht ▸ (hinv.withResult 0 n).withStatus hfault (by simp)
  | failed u hu hm _ ht =>
    obtain ⟨hinv, hfault⟩ := drawn hu hm
    exact ht ▸ hinv.withStatus hfault (by simp)
  | abandoned u _ ht _ => exact ht ▸ afterReset_inv u

/-- A decoded command is well formed (R82). -/
theorem decode_wf {cw : CmdWord} {i : Instr} (h : decode cw = .ok i) : i.wf = true :=
  (encodeOfDecodeIsTheWord cw i h).1

/-- Settles O46, by the kinds of step. -/
theorem stepKeepsTheInvariant : Obligations.StepKeepsTheInvariant := by
  intro s t hs h
  cases step_next h with
  | idle _ ht => exact ht ▸ hs
  | command _ rest _ _ hf hd ht => exact exec_keeps_inv ht (hs.withHost rest) hf (decode_wf hd)
  | illegal _ rest _ hf ht => exact ht ▸ (hs.withHost rest).withStatus hf (by simp)
  | ignored _ rest _ _ ht => exact ht ▸ hs.withHost rest
  | read _ rest d _ _ ht => exact ht ▸ (hs.withHost rest).withRead d
  | wroteOpb _ v rest _ ha ht => exact ht ▸ (hs.withHost rest).withOpb_write v ha
  | reset rest _ ht => exact ht ▸ afterReset_inv (s.withHost rest)

/-! ## The pad bits

A fill gives all of them its value, a merge inside the raster touches none (R33), and a reset leaves no row. -/

/-- A filled raster, byte by byte and so pad bit by pad bit. -/
theorem filled_padsAre (s : State) (value : Bool) : (s.filled value).PadsAre value := by
  intro r c hr _ hc
  have hj : c / 8 < s.bpr := by
    replace hc : c < 8 * s.bpr := hc
    omega
  rw [State.pix, State.filled, withFb_bpr, fbByte_fill s _ (fbIndex_lt hj hr)]
  cases value with
  | true => exact pixelOf_ff (by omega)
  | false => exact pixelOf_zero _

theorem State.PadsAre.merge {s : State} {b : Bool} (h : s.PadsAre b) {x y width height : Nat}
    {source : Nat → Byte} (hw : 0 < width) (hx : x + width ≤ s.width) :
    (s.withFb (mergeRegion s.bpr x y width height source s.fb)).PadsAre b := by
  intro r c hr hpad hc
  replace hpad : s.width ≤ c := hpad
  rw [pix_merge hw hx hc hr, if_neg (by omega)]
  exact h r c hr hpad hc

theorem afterReset_padsAre (s : State) (b : Bool) : s.afterReset.PadsAre b :=
  fun _ _ hr => absurd hr (Nat.not_lt_zero _)

theorem afterInit_padsAre (s : State) {w h : Nat} (v : Variant) (hi : (Instr.init w h v).wf = true) :
    (s.afterInit w h v).PadsAre false := by
  rw [afterInit_eq s v hi]
  exact filled_padsAre (s.withConfig w h v) false

/-- The pad bits are a matter of the geometry and of `FB`. -/
theorem Drawn.padsAre {s u : State} (hu : Drawn s u) {b : Bool} (h : (s.withFb u.fb).PadsAre b) :
    u.PadsAre b := by
  rw [hu.same]
  exact h

/-- Every command but INIT and CLEAR keeps the pad bits: its stores are merges inside the raster. -/
theorem exec_keeps_pads {i : Instr} {s t : State} {b : Bool} (hinit : ∀ w h v, i ≠ .init w h v)
    (hclear : ∀ v, i ≠ .clear v) (h : exec i s = .next t) (hr : t.resets = s.resets) (hs : s.PadsAre b) :
    t.PadsAre b := by
  refine exec_keeps (P := fun u => u.PadsAre b)
    ⟨fun _ _ _ _ hu => hu, fun _ _ hu => hu, fun _ _ _ hu => hu⟩ h hr hs ?_
  cases i with
  | init w k v => exact absurd rfl (hinit w k v)
  | clear v => exact absurd rfl (hclear v)
  | wrreg x y w h => exact fun hw _ hx => hs.merge hw hx
  | dchar x y c font m => exact fun f _ hwf hx => hs.merge (fontWf_pos hwf).1 hx
  | dstr x y l sp font m =>
    intro f c cur u _ hwf hu hp _ hx
    obtain ⟨gw, -⟩ := hu.geometry
    exact hp.merge (fontWf_pos hwf).1 (gw ▸ hx)
  | getpx | xlate | pageof => trivial

/-- A CLEAR is rejected, or gives the pad bits its value, or is abandoned. -/
theorem exec_clear_pads {s t : State} {value : Bool} (h : exec (.clear value) s = .next t) :
    t = s.withStatus .notConfigured ∨ t.PadsAre value := by
  have filled (u : State) (hu : Drawn s u) (hfb : u.fb = (s.filled value).fb) : u.PadsAre value :=
    hu.padsAre (hfb ▸ filled_padsAre s value)
  rcases execClear_cases value s with
    ⟨-, e⟩ | ⟨-, ⟨u, hu, hfb, e⟩ | ⟨u, hu, hfb, e⟩ | ⟨u, -, -, e⟩ | ⟨-, e⟩⟩
  · exact .inl (Host.Outcome.next.inj (h.symm.trans e))
  · exact .inr (Host.Outcome.next.inj (h.symm.trans e) ▸ filled u hu hfb)
  · exact .inr (Host.Outcome.next.inj (h.symm.trans e) ▸ filled u hu hfb)
  · exact .inr (Host.Outcome.next.inj (h.symm.trans e) ▸ afterReset_padsAre u value)
  · exact nomatch h.symm.trans e

/-- An INIT builds a raster with pad bits 0, or leaves the raster as it was. -/
theorem exec_init_pads {s t : State} {w h : Nat} {v : Variant} (hi : (Instr.init w h v).wf = true)
    (hx : exec (.init w h v) s = .next t) :
    t.PadsAre false ∨ t = { s with status := t.status, fault := t.fault } := by
  rcases execInit_cases w h v s with e | ⟨-, e⟩ | ⟨-, -, -, -, -, e⟩
  · exact .inr (Host.Outcome.next.inj (hx.symm.trans e) ▸ rfl)
  · exact .inr (Host.Outcome.next.inj (hx.symm.trans e) ▸ rfl)
  · exact .inl (Host.Outcome.next.inj (hx.symm.trans e) ▸ afterInit_padsAre s v hi)

/-- Settles O48, command by command. -/
theorem padBitsFollowTheLastClear : Obligations.PadBitsFollowTheLastClear := by
  refine ⟨fun s t w h v hi hc hx ht => ?init, fun s t value hx _ hrej => ?clear,
    fun i s t b hinit hclear hx hr hs => exec_keeps_pads hinit hclear hx hr hs⟩
  case init =>
    rcases exec_init_pads hi hx with hp | heq
    · exact hp
    · rw [heq] at ht
      simp [hc] at ht
  case clear =>
    rcases exec_clear_pads hx with rfl | hp
    · exact absurd ⟨by simp [statusCode], by simp [statusCode]⟩ hrej
    · exact hp

/-- A command that counts as a reset was abandoned: it leaves the state after that reset (R250). -/
theorem exec_abandoned {i : Instr} {s t : State} (h : exec i s = .next t) (hr : t.resets ≠ s.resets) :
    ∃ u : State, t = u.afterReset := by
  rcases (exec_ended h).frame with ⟨u, hu, ht⟩ | ⟨-, -, ht⟩ | ⟨u, -, ht⟩
  · exact absurd ((congrArg State.resets ht).trans hu.resets_eq) hr
  · exact absurd (congrArg State.resets ht) hr
  · exact ⟨u, ht⟩

/-- A command keeps the pad bits equal to each other. -/
theorem exec_keeps_pads_uniform {i : Instr} {s t : State} (h : exec i s = .next t) (hi : i.wf = true)
    (hs : ∃ b, s.PadsAre b) : ∃ b, t.PadsAre b := by
  obtain ⟨b, hb⟩ := hs
  cases i with
  | init w h' v =>
    rcases exec_init_pads hi h with hp | heq
    · exact ⟨false, hp⟩
    · exact ⟨b, heq ▸ hb⟩
  | clear v =>
    rcases exec_clear_pads h with rfl | hp
    · exact ⟨b, hb⟩
    · exact ⟨v, hp⟩
  | getpx | wrreg | dchar | dstr | xlate | pageof =>
    by_cases hr : t.resets = s.resets
    · exact ⟨b, exec_keeps_pads (by simp) (by simp) h hr hb⟩
    · obtain ⟨u, rfl⟩ := exec_abandoned h hr
      exact ⟨b, afterReset_padsAre u b⟩

/-- Settles O47, by the kinds of step. -/
theorem stepKeepsThePadBitsUniform : Obligations.StepKeepsThePadBitsUniform := by
  intro s t hs h
  cases step_next h with
  | idle _ ht => exact ht ▸ hs
  | command _ rest _ _ _ hd ht => exact exec_keeps_pads_uniform (s := s.withHost rest) ht (decode_wf hd) hs
  | illegal _ _ _ _ ht => exact ht ▸ hs
  | ignored _ _ _ _ ht => exact ht ▸ hs
  | read _ _ _ _ _ ht => exact ht ▸ hs
  | wroteOpb _ _ _ _ _ ht => exact ht ▸ hs
  | reset rest _ ht => exact ⟨false, ht ▸ afterReset_padsAre (s.withHost rest) false⟩

/-! ## INIT -/

/-- INIT's first three checks (R111). -/
theorem exec_init_badConfig {s : State} {w h : Nat} {v : Variant}
    (hbad : s.configured = true ∨ w = 0 ∨ h = 0 ∨ (v = .interleaved ∧ h % 2 = 1)) :
    exec (.init w h v) s = raise .badConfig s := by
  simp only [exec, execInit]
  by_cases hc : s.configured = true
  · rw [if_pos hc]
  by_cases h0 : w = 0 ∨ h = 0
  · rw [if_neg hc, if_pos h0]
  · rw [if_neg hc, if_neg h0, if_pos (by tauto)]

/-- INIT past its first three checks: the raster fits, or the fatal fault is met (R111). -/
theorem exec_init_checked {s : State} {w h : Nat} {v : Variant} (hc : s.configured = false) (hw : 0 < w)
    (hh : 0 < h) (hodd : v = .interleaved → h % 2 = 0) :
    exec (.init w h v) s = if h * ceil8 w > s.params.fbCapacity then raise .allocFailure s.withFault
      else .next (s.afterInit w h v) := by
  have heven : ¬ (v = .interleaved ∧ h % 2 = 1) := fun ⟨hv, h1⟩ => by simp [hodd hv] at h1
  simp only [exec, execInit]
  rw [if_neg (by simp [hc]), if_neg (by omega), if_neg heven]
  rfl

theorem afterInit_fbSize (s : State) {w h : Nat} (v : Variant) (hi : (Instr.init w h v).wf = true) :
    (s.afterInit w h v).fbSize = h * ceil8 w :=
  withConfig_fbSize s v (init_wf hi).1 (init_wf hi).2

/-- INIT zero-fills the allocated part (R111). -/
theorem afterInit_fbByte (s : State) {w h : Nat} (v : Variant) (hi : (Instr.init w h v).wf = true) {a : Nat}
    (ha : a < (s.afterInit w h v).fbSize) : (s.afterInit w h v).fbByte a = 0x00 := by
  rw [afterInit_eq s v hi] at ha ⊢
  exact fbByte_fill (s.withConfig w h v) 0x00 ha

/-- Settles O15: the checks in their order, then the state that INIT leaves. -/
theorem initConstructsOrRefuses : Obligations.InitConstructsOrRefuses := by
  intro s w h v hi
  refine ⟨exec_init_badConfig, fun hc hw hh hodd => ?_⟩
  rw [exec_init_checked hc hw hh hodd]
  refine ⟨fun hcap => if_pos hcap, fun hcap => ⟨s.afterInit w h v, if_neg (by omega), rfl,
    withConfig_width s w h v (init_wf hi).1, withConfig_height s w h v (init_wf hi).2, afterInit_fbSize s v hi,
    fun a => afterInit_fbByte s v hi, fun a ha => ?_⟩⟩
  rw [afterInit_fbSize s v hi] at ha
  exact (fbRead_fill s.fb _ _ a).trans (if_neg (by omega))

/-! ## CLEAR -/

/-- A row of a filled raster as its record shows it. -/
theorem rowRecord_filled (s : State) (value : Bool) {r : Nat} (hr : r < s.height) :
    rowRecord (s.filled value) r
      = ⟨toPhysical s.cfgVariant s.height r, false, List.replicate s.bpr (if value then 0xFF else 0x00)⟩ := by
  have bytes : rowBytes (s.filled value) r = List.replicate s.bpr (if value then 0xFF else 0x00) := by
    refine List.eq_replicate_iff.mpr ⟨by simp [rowBytes, State.filled], fun b hb => ?_⟩
    obtain ⟨j, hj, rfl⟩ := List.mem_map.mp hb
    exact fbByte_fill s _ (fbIndex_lt (List.mem_range.mp hj) hr)
  rw [rowRecord, bytes]
  rfl

/-- The first `n` rows of a filled raster as the refresh step sends them. -/
theorem rowRecords_filled (s : State) (value : Bool) {n : Nat} (hn : n ≤ s.height) :
    (List.range' 0 n).map (rowRecord (s.filled value)) = (List.range n).map fun r =>
      ⟨toPhysical s.cfgVariant s.height r, false, List.replicate s.bpr (if value then 0xFF else 0x00)⟩ := by
  rw [← List.range_eq_range']
  exact List.map_congr_left fun r hr => rowRecord_filled s value (by have := List.mem_range.mp hr; omega)

/-- CLEAR past its check. -/
theorem exec_clear_configured {s : State} (hc : s.configured = true) (value : Bool) :
    exec (.clear value) s = finish (flushEach (List.range' 0 s.height) (s.filled value)) := by
  simp only [exec, execClear]
  rw [if_neg (by simp [hc])]
  rfl

/-- Settles O16: the fill is complete before the first record, so every record shows a filled row. -/
theorem clearFillsAndRefreshes : Obligations.ClearFillsAndRefreshes := by
  intro s value v record
  refine ⟨fun hc => if_pos hc, fun hc => ⟨(s.filled value).fb, fun a => fbByte_fill s v, fun a ha => ?beyond,
    fun rest hack => ?answered, fun k rest hk hack => ?failed⟩⟩
  case beyond => exact (fbRead_fill s.fb _ _ a).trans (if_neg (by omega))
  case answered =>
    have hrows : (s.filled value).Acknowledged (List.range' 0 s.height).length rest := by
      rwa [List.length_range']
    rw [exec_clear_configured hc, flushEach_ok hrows, rowRecords_filled s value le_rfl]
    rfl
  case failed =>
    have hrow : k < (List.range' 0 s.height).length := by rwa [List.length_range']
    rw [exec_clear_configured hc, flushEach_stops hrow (by simp) (s := s.filled value) hack, take_range' hk,
      rowRecords_filled s value hk]
    rfl

/-! ## GETPX -/

/-- Settles O17: `RESULT.A` holds the one bit of the pixel. -/
theorem getpxReadsTheStoredPixel : Obligations.GetpxReadsTheStoredPixel := by
  refine fun s x y => ⟨fun hc => if_pos hc, fun hc hb => ?_,
    fun hc hx hy => ⟨packResult 0 (s.pix x y).toNat, ?_, ?_, ?_⟩⟩
  · exact (if_neg (by simp [hc])).trans (if_pos hb)
  · exact (if_neg (by simp [hc])).trans (if_neg (by omega))
  · rw [resultA_packResult, BitVec.toNat_ofNat, Nat.mod_eq_of_lt (by have := (s.pix x y).toNat_lt; omega)]
    rfl
  · rw [resultB_packResult]
    rfl

end Sys2Proof.Machine
end

section
/-! PROOFS. The statements about the Pixel-Region Writer: WRREG's checks, the pixels and the bytes that it writes, and
what of its source it does not read. -/

namespace Sys2Proof.Machine

/-! ## WRREG's checks -/

section checks
variable {s : State} {x y width height : Nat}

theorem exec_wrreg_notConfigured (hc : s.configured = false) :
    exec (.wrreg x y width height) s = raise .notConfigured s := if_pos hc

theorem exec_wrreg_operandRange (hc : s.configured = true)
    (hcap : s.params.opbCapacity < height * ceil8 width) :
    exec (.wrreg x y width height) s = raise .operandRange s := by
  simp only [exec, execWrreg]
  rw [if_neg (by simp [hc]), if_pos hcap]

theorem exec_wrreg_outOfBounds (hc : s.configured = true)
    (hcap : height * ceil8 width ≤ s.params.opbCapacity)
    (hout : s.width < x + width ∨ s.height < y + height) :
    exec (.wrreg x y width height) s = raise .outOfBounds s := by
  simp only [exec, execWrreg]
  rw [if_neg (by simp [hc]), if_neg (by omega), if_pos hout]

/-- A rectangle without pixels: nothing is written and no row is sent (R136). -/
theorem exec_wrreg_empty (hc : s.configured = true) (hcap : height * ceil8 width ≤ s.params.opbCapacity)
    (hx : x + width ≤ s.width) (hy : y + height ≤ s.height) (hempty : width = 0 ∨ height = 0) :
    exec (.wrreg x y width height) s = complete s := by
  simp only [exec, execWrreg]
  rw [if_neg (by simp [hc]), if_neg (by omega), if_neg (by omega), if_neg (by omega)]

end checks

/-- Settles O18, check by check. -/
theorem wrregChecksInOrder : Obligations.WrregChecksInOrder := fun _ _ _ _ _ =>
  ⟨exec_wrreg_notConfigured, fun hc => ⟨exec_wrreg_operandRange hc, fun hcap =>
    ⟨exec_wrreg_outOfBounds hc hcap, exec_wrreg_empty hc hcap⟩⟩⟩

/-! ## The region, pixel by pixel -/

/-- The merge of any rectangle inside the raster, an empty one too (R131). -/
theorem pix_merge_inside {s : State} {x y width height : Nat} {source : Nat → Byte}
    (hx : x + width ≤ s.width) {c r : Nat} (hc : c < 8 * s.bpr) (hr : r < s.height) :
    (s.withFb (mergeRegion s.bpr x y width height source s.fb)).pix c r
      = if x ≤ c ∧ c < x + width ∧ y ≤ r ∧ r < y + height
        then srcPix source width (c - x) (r - y) else s.pix c r := by
  rcases Nat.eq_zero_or_pos width with hw | hw
  · rw [if_neg (by omega), mergeRegion, if_pos (.inl hw)]
    rfl
  · exact pix_merge hw hx hc hr

/-- WRREG of a rectangle that is not empty, past its checks, the answer to row `k` not `ok` (R203, R205). -/
theorem exec_wrreg_stops {s : State} {x y width height k : Nat} {e : TransportEvent}
    {rest : List TransportEvent} (hc : s.configured = true)
    (hcap : height * ceil8 width ≤ s.params.opbCapacity) (hx : x + width ≤ s.width)
    (hy : y + height ≤ s.height) (hw : 0 < width) (hh : 0 < height) (hk : k < height)
    (he : e ≠ .ack .ok) (hack : s.AcknowledgedThen k e rest) :
    exec (.wrreg x y width height) s = endOf e ((s.withRegion x y width height).afterSends
      ((List.range' y (k + 1)).map (rowRecord (s.withRegion x y width height))) rest s.ackDraws) := by
  have hrow : k < (List.range' y height).length := by rwa [List.length_range']
  rw [exec_wrreg_inside hc hcap hx hy hw hh, ← take_range' (y := y) hk]
  exact congrArg finish (flushEach_stops (s := s.withRegion x y width height) hrow he hack)

/-- Settles O19: the merge is complete before the first record, and the refresh step writes no pixel. -/
theorem wrregMergesTheRegion : Obligations.WrregMergesTheRegion := by
  refine ⟨fun s x y width height source hx hy c r hc hr => pix_merge_inside hx hc hr,
    fun s x y width height hc hcap hx hy hw hh => ⟨(s.withRegion x y width height).fb,
      fun c r hcol hr => pix_merge_inside hx hcol hr, fun rest hack => ?answered,
      fun k rest hk hack => ?failed⟩⟩
  case answered => exact exec_wrreg_acknowledged hc hcap hx hy hw hh hack
  case failed => exact exec_wrreg_stops hc hcap hx hy hw hh hk (by simp) hack

/-! ## A region aligned to byte boundaries

The bytes of its rows are whole bytes of the region, so each receives the eight pixels of one source byte (R135). -/

/-- A source byte of a region without pad bits, pixel by pixel. -/
theorem srcPix_aligned {source : Nat → Byte} {width k p : Nat} (i : Nat) (hw8 : width % 8 = 0)
    (hp : p < 8) :
    srcPix source width (8 * k + p) i = pixelOf (source (i * (width / 8) + k)) p := by
  rw [srcPix, show ceil8 width = width / 8 by unfold ceil8; omega, show (8 * k + p) / 8 = k by omega,
    show (8 * k + p) % 8 = p by omega]

/-- A byte inside an aligned region is the source's byte. -/
theorem fbByte_merge_aligned {s : State} {x y width height : Nat} {source : Nat → Byte}
    (hx : x + width ≤ s.width) (hy : y + height ≤ s.height) (hx8 : x % 8 = 0) (hw8 : width % 8 = 0)
    {i k : Nat} (hi : i < height) (hk : k < width / 8) :
    (s.withFb (mergeRegion s.bpr x y width height source s.fb)).fbByte (fbIndex s.bpr (x / 8 + k) (y + i))
      = source (i * (width / 8) + k) := by
  have hcover := bpr_covers s
  refine byte_ext fun p hp => ?_
  have hcol : 8 * (x / 8 + k) + p = x + (8 * k + p) := by omega
  calc pixelOf ((s.withFb (mergeRegion s.bpr x y width height source s.fb)).fbByte
        (fbIndex s.bpr (x / 8 + k) (y + i))) p
      = (s.withFb (mergeRegion s.bpr x y width height source s.fb)).pix (8 * (x / 8 + k) + p) (y + i) :=
        pixelOf_fbByte (s.withFb _) hp
    _ = srcPix source width (8 * k + p) i := by
        rw [hcol, pix_merge_inside hx (by omega) (by omega), if_pos (by omega), Nat.add_sub_cancel_left,
          Nat.add_sub_cancel_left]
    _ = pixelOf (source (i * (width / 8) + k)) p := srcPix_aligned i hw8 hp

/-- A byte outside an aligned region is as before. -/
theorem fbByte_merge_outside_aligned {s : State} {x y width height : Nat} {source : Nat → Byte}
    (hw : 0 < width) (hx : x + width ≤ s.width) (hx8 : x % 8 = 0) (hw8 : width % 8 = 0) {a : Nat}
    (ha : ∀ i k, i < height → k < width / 8 → a ≠ fbIndex s.bpr (x / 8 + k) (y + i)) :
    (s.withFb (mergeRegion s.bpr x y width height source s.fb)).fbByte a = s.fbByte a := by
  refine fbByte_merge_outside hw hx fun j r hlo hhi hy hy' => ?_
  obtain ⟨k, rfl⟩ := Nat.exists_eq_add_of_le hlo
  obtain ⟨i, rfl⟩ := Nat.exists_eq_add_of_le hy
  exact ha i k (by omega) (by omega)

/-- Settles O20: the empty rectangle has no byte to copy; of every other one the merge is a byte copy, and the refresh
step writes no byte. -/
theorem alignedWriteIsAByteCopy : Obligations.AlignedWriteIsAByteCopy := by
  intro s x y width height rest hc hcap hx hy hx8 hw8 hack
  by_cases hempty : width = 0 ∨ height = 0
  · exact ⟨_, exec_wrreg_empty hc hcap hx hy hempty, fun i k hi hk => by omega, fun a _ => rfl⟩
  have hw : 0 < width := by omega
  exact ⟨_, exec_wrreg_acknowledged hc hcap hx hy hw (by omega) hack,
    fun i k => fbByte_merge_aligned hx hy hx8 hw8, fun a => fbByte_merge_outside_aligned hw hx hx8 hw8⟩

/-! ## The source's pad bits

Two sources with the same pixels are merged to the same raster (R130), and the refresh step reads nothing else of the
memories: its records, and so the answers that it takes, are the same. -/

/-- `u` differs from `s` in the memories only, and its raster reads the same. -/
structure SameRaster (s u : State) : Prop where
  same  : u = { s with fb := u.fb, opb := u.opb }
  bytes : ∀ a, u.fbByte a = s.fbByte a

namespace SameRaster
variable {s u : State}

theorem rowRecord_eq (h : SameRaster s u) : rowRecord u = rowRecord s := by
  obtain ⟨same, bytes⟩ := h
  rw [same] at bytes ⊢
  exact rowRecord_congr bytes rfl rfl rfl

theorem withStatus (h : SameRaster s u) (e : Status) : SameRaster (s.withStatus e) (u.withStatus e) :=
  ⟨congrArg (State.withStatus · e) h.same, h.bytes⟩

theorem afterSends (h : SameRaster s u) (rs : List SendRecord) (t : List TransportEvent) (d : Nat) :
    SameRaster (s.afterSends rs t d) (u.afterSends rs t d) :=
  ⟨congrArg (State.afterSends · rs t d) h.same, h.bytes⟩

/-- A reset makes both memories unspecified again (R250), so nothing is left of the difference. -/
theorem afterReset (h : SameRaster s u) : u.afterReset = s.afterReset := by
  rw [h.same]
  rfl

end SameRaster

/-- A SEND record is answered alike. -/
theorem send_sameRaster {s u : State} (h : SameRaster s u) (r : SendRecord) :
    ∃ e s' u', send r s = (e, s') ∧ send r u = (e, u') ∧ SameRaster s' u' := by
  have htransport : u.transport = s.transport := by rw [h.same]
  have hdraws : u.ackDraws = s.ackDraws := by rw [h.same]
  cases ht : s.transport with
  | nil =>
    refine ⟨.ack (Config.freeAck s.ackDraws), (s.withSend r).withDraw, (u.withSend r).withDraw, ?_, ?_,
      congrArg (fun v => (v.withSend r).withDraw) h.same, h.bytes⟩
    · simp [send, takeEvent, ht]
    · simp [send, takeEvent, htransport, ht, hdraws]
  | cons e rest =>
    exact ⟨e, _, _, send_listed ht, send_listed (htransport.trans ht), hdraws ▸ h.afterSends _ _ _⟩

/-- The refresh step ends alike, the memories' difference kept or, by a reset, gone. -/
theorem finish_flushEach_sameRaster {rows : List Nat} {s t u : State} (h : SameRaster s u)
    (ht : finish (flushEach rows s) = .next t) :
    ∃ v, finish (flushEach rows u) = .next v ∧ SameRaster t v := by
  induction rows generalizing s u with
  | nil =>
    cases ht
    exact ⟨_, rfl, h.withStatus .ok⟩
  | cons r rest ih =>
    obtain ⟨e, s', u', hs, hu, h'⟩ := send_sameRaster h (rowRecord s r)
    rw [flushEach, hs] at ht
    rw [flushEach, h.rowRecord_eq, hu]
    match e with
    | .ack .ok => exact ih h' ht
    | .ack .fail =>
      cases ht
      exact ⟨_, rfl, h'.withStatus .transportFailure⟩
    | .reset =>
      cases ht
      exact ⟨_, congrArg Host.Outcome.next h'.afterReset, rfl, fun _ => rfl⟩
    | .never => cases ht

/-- Contents of `FB` with the same pixels and pad bits read the same. -/
theorem fbByte_withFb_congr {s : State} {m m' : Memory}
    (h : ∀ c r, c < 8 * s.bpr → r < s.height → (s.withFb m').pix c r = (s.withFb m).pix c r) (a : Nat) :
    (s.withFb m').fbByte a = (s.withFb m).fbByte a := by
  by_cases ha : a < s.fbSize
  · exact fbByte_of_pix (s := s.withFb m) (t := s.withFb m') rfl h ha
  · rw [fbByte_withFb_beyond s m' (Nat.not_lt.mp ha), fbByte_withFb_beyond s m (Nat.not_lt.mp ha)]

/-- Sources with the same pixels are merged to the same raster (R130). -/
theorem fbByte_merge_congr {s : State} {x y width height : Nat} {source source' : Nat → Byte}
    (hx : x + width ≤ s.width)
    (hsrc : ∀ q i, q < width → i < height → srcPix source' width q i = srcPix source width q i) (a : Nat) :
    (s.withFb (mergeRegion s.bpr x y width height source' s.fb)).fbByte a
      = (s.withFb (mergeRegion s.bpr x y width height source s.fb)).fbByte a := by
  refine fbByte_withFb_congr (fun c r hc hr => ?_) a
  rw [pix_merge_inside hx hc hr, pix_merge_inside hx hc hr]
  split
  · exact hsrc _ _ (by omega) (by omega)
  · rfl

/-- WRREG's checks do not read `OPB`: whatever it holds, the command ends before its merge with the same status, or
merges and refreshes. -/
theorem exec_wrreg_withOpb (s : State) (x y width height : Nat) :
    (∃ e, ∀ o, exec (.wrreg x y width height) (s.withOpb o) = .next ((s.withOpb o).withStatus e)) ∨
    (x + width ≤ s.width ∧ ∀ o, exec (.wrreg x y width height) (s.withOpb o)
      = finish (flushRows y height ((s.withOpb o).withRegion x y width height))) := by
  cases hc : s.configured with
  | false => exact .inl ⟨.notConfigured, fun _ => exec_wrreg_notConfigured hc⟩
  | true =>
    by_cases hcap : s.params.opbCapacity < height * ceil8 width
    · exact .inl ⟨.operandRange, fun _ => exec_wrreg_operandRange hc hcap⟩
    replace hcap := Nat.not_lt.mp hcap
    by_cases hout : s.width < x + width ∨ s.height < y + height
    · exact .inl ⟨.outOfBounds, fun _ => exec_wrreg_outOfBounds hc hcap hout⟩
    obtain ⟨hx, hy⟩ : x + width ≤ s.width ∧ y + height ≤ s.height := by omega
    by_cases hempty : width = 0 ∨ height = 0
    · exact .inl ⟨.ok, fun _ => exec_wrreg_empty hc hcap hx hy hempty⟩
    · exact .inr ⟨hx, fun _ => exec_wrreg_inside hc hcap hx hy (by omega) (by omega)⟩

/-- Settles O22: the two merged rasters read the same, so the two refresh steps end alike. -/
theorem sourcePadBitsAreIgnored : Obligations.SourcePadBitsAreIgnored := by
  intro s t o x y width height hsrc ht
  suffices h : ∃ u, exec (.wrreg x y width height) (s.withOpb o) = .next u ∧ SameRaster t u by
    obtain ⟨u, hu, same, bytes⟩ := h
    exact ⟨u, hu, by rw [same], by rw [same], bytes⟩
  rcases exec_wrreg_withOpb s x y width height with ⟨e, h⟩ | ⟨hx, h⟩
  · cases (h s.opb).symm.trans ht
    exact ⟨_, h o, rfl, fun _ => rfl⟩
  · have merged : SameRaster (s.withRegion x y width height) ((s.withOpb o).withRegion x y width height) :=
      ⟨rfl, fbByte_merge_congr hx hsrc⟩
    rw [h o]
    exact finish_flushEach_sameRaster merged ((h s.opb).symm.trans ht)

end Sys2Proof.Machine
end

section
/-! PROOFS. The statements about the display transform and DCHAR: its checks, the glyph's pixels, a glyph drawn
twice. -/

namespace Sys2Proof.Machine

/-! ## The display transform -/

theorem transformPixel_xor (p : Params) (g cp : Bool) : transformPixel p .xor g cp = Bool.xor g cp := by
  cases g <;> cases cp <;> rfl

/-- Invert under the default function `NOT g` (R155). -/
theorem transformPixel_invert_default {p : Params} (hp : p.invertFn = Config.invertNotG) (g cp : Bool) :
    transformPixel p .invert g cp = !g := by
  rw [transformPixel, hp]
  cases g <;> cases cp <;> rfl

/-- Settles O25: the three columns of R155's table. -/
theorem transformTruthTables : Obligations.TransformTruthTables :=
  ⟨fun p g cp => ⟨rfl, transformPixel_xor p g cp, rfl⟩, fun _ g cp hp => transformPixel_invert_default hp g cp⟩

/-! ## DCHAR's checks -/

section dchar
variable {s : State} {x y c font : Nat} {mode : Mode} {f : Font}

theorem exec_dchar_notConfigured (hc : s.configured = false) :
    exec (.dchar x y c font mode) s = raise .notConfigured s := if_pos hc

theorem exec_dchar_operandRange (hc : s.configured = true) (hf : fontOf s.params.fonts font = none) :
    exec (.dchar x y c font mode) s = raise .operandRange s := by
  simp only [exec, execDchar, hf]
  rw [if_neg (by simp [hc])]

/-- A font that breaks R151 is refused by name (U4, log 6). -/
theorem exec_dchar_refused (hc : s.configured = true) (hf : fontOf s.params.fonts font = some f)
    (hwf : fontWf f = false) : exec (.dchar x y c font mode) s = .refused (.fontOutsideModel font) := by
  simp only [exec, execDchar, hf]
  rw [if_neg (by simp [hc]), if_pos hwf]

theorem exec_dchar_outOfBounds (hc : s.configured = true) (hf : fontOf s.params.fonts font = some f)
    (hwf : fontWf f = true) (hout : s.width < x + f.fw ∨ s.height < y + f.fh) :
    exec (.dchar x y c font mode) s = raise .outOfBounds s := by
  simp only [exec, execDchar, hf]
  rw [if_neg (by simp [hc]), if_neg (by simp [hwf]), if_pos hout]

end dchar

/-- Settles O23, check by check. -/
theorem dcharChecksInOrder : Obligations.DcharChecksInOrder := fun _ _ _ _ _ _ =>
  ⟨exec_dchar_notConfigured, exec_dchar_operandRange, fun _ => exec_dchar_outOfBounds⟩

/-! ## The substitute character -/

theorem substChar_unprintable {c : Nat} (h : c < 0x20 ∨ 0x7E < c) : substChar c = substChar 0x20 :=
  if_neg (by omega)

/-- A glyph is drawn from the substituted code only (R154, R156). -/
theorem drawGlyph_congr {c c' : Nat} (h : substChar c = substChar c') (f : Font) (mode : Mode) (x y : Nat)
    (s : State) : drawGlyph f c mode x y s = drawGlyph f c' mode x y s := by
  simp only [drawGlyph, renderChar, h]

/-- Settles O26: DCHAR's checks do not read the code, and the glyph drawn is that of the substituted one. -/
theorem unprintableCodesDrawTheSpace : Obligations.UnprintableCodesDrawTheSpace := by
  intro s x y c font mode h
  simp only [exec, execDchar, drawGlyph_congr (substChar_unprintable h)]

/-! ## The glyph, drawn and refreshed -/

/-- The state after a glyph's merge and the sending of its first `n` rows, `rest` being what the transport has yet to
say. -/
def State.glyphSent (s : State) (f : Font) (c : Nat) (mode : Mode) (x y n : Nat) (rest : List TransportEvent) :
    State :=
  (s.withGlyph f c mode x y).afterSends ((List.range' y n).map (rowRecord (s.withGlyph f c mode x y))) rest
    s.ackDraws

section glyph
variable {s : State} {f : Font} {mode : Mode} {x y c k : Nat} {rest : List TransportEvent}

theorem withGlyph_afterSends (s : State) (rs : List SendRecord) (t : List TransportEvent) (d : Nat) :
    (s.afterSends rs t d).withGlyph f c mode x y = (s.withGlyph f c mode x y).afterSends rs t d := rfl

theorem withGlyph_withStatus (s : State) (e : Status) :
    (s.withStatus e).withGlyph f c mode x y = (s.withGlyph f c mode x y).withStatus e := rfl

@[simp] theorem glyphSent_fbByte (n a : Nat) :
    (s.glyphSent f c mode x y n rest).fbByte a = (s.withGlyph f c mode x y).fbByte a := rfl

/-- A glyph whose rows are all acknowledged (R203). -/
theorem drawGlyph_acknowledged (hack : s.Acknowledged f.fh rest) :
    drawGlyph f c mode x y s = .going (s.glyphSent f c mode x y f.fh rest) := by
  have hrows : (s.withGlyph f c mode x y).Acknowledged (List.range' y f.fh).length rest := by
    rwa [List.length_range']
  exact flushEach_ok hrows

/-- A glyph the answer to whose row `k` is not `ok` (R205, R250, R258). -/
theorem drawGlyph_stops {e : TransportEvent} (hk : k < f.fh) (he : e ≠ .ack .ok)
    (hack : s.AcknowledgedThen k e rest) :
    drawGlyph f c mode x y s = .ended (endOf e (s.glyphSent f c mode x y (k + 1) rest)) := by
  have hrow : k < (List.range' y f.fh).length := by rwa [List.length_range']
  rw [State.glyphSent, ← take_range' (y := y) hk]
  exact flushEach_stops (s := s.withGlyph f c mode x y) hrow he hack

/-- DCHAR of a glyph inside the raster, every record acknowledged. -/
theorem exec_dchar_acknowledged {font : Nat} (hc : s.configured = true)
    (hf : fontOf s.params.fonts font = some f) (hwf : fontWf f = true) (hx : x + f.fw ≤ s.width)
    (hy : y + f.fh ≤ s.height) (hack : s.Acknowledged f.fh rest) :
    exec (.dchar x y c font mode) s = .next ((s.glyphSent f c mode x y f.fh rest).withStatus .ok) :=
  (exec_dchar_inside hc hf hwf hx hy).trans (congrArg finish (drawGlyph_acknowledged hack))

/-- DCHAR of a glyph inside the raster, the answer to row `k` not `ok`. -/
theorem exec_dchar_stops {font : Nat} {e : TransportEvent} (hc : s.configured = true)
    (hf : fontOf s.params.fonts font = some f) (hwf : fontWf f = true) (hx : x + f.fw ≤ s.width)
    (hy : y + f.fh ≤ s.height) (hk : k < f.fh) (he : e ≠ .ack .ok) (hack : s.AcknowledgedThen k e rest) :
    exec (.dchar x y c font mode) s = endOf e (s.glyphSent f c mode x y (k + 1) rest) :=
  (exec_dchar_inside hc hf hwf hx hy).trans (congrArg finish (drawGlyph_stops hk he hack))

end glyph

/-- Settles O24: the merge is complete before the first record, and the refresh step writes no pixel. -/
theorem dcharDrawsTheGlyph : Obligations.DcharDrawsTheGlyph := fun s x y c _ mode f hc hf hwf hx hy =>
  ⟨(s.withGlyph f c mode x y).fb, fun _ _ hcol hr => pix_withGlyph (fontWf_pos hwf).1 hx hcol hr,
    fun _ hack => exec_dchar_acknowledged hc hf hwf hx hy hack,
    fun _ _ hk hack => exec_dchar_stops hc hf hwf hx hy hk (by simp) hack⟩

/-! ## A glyph drawn twice

In its rectangle the transform is applied twice, to the same glyph pixel; every other pixel is as before (R158). -/

section twice
variable {s : State} {f : Font} {mode : Mode} {x y c : Nat}

/-- The second drawing transforms what the first has left. -/
theorem pix_withGlyph_twice (hw : 0 < f.fw) (hx : x + f.fw ≤ s.width) {q r : Nat} (hq : q < 8 * s.bpr)
    (hr : r < s.height) :
    ((s.withGlyph f c mode x y).withGlyph f c mode x y).pix q r
      = if x ≤ q ∧ q < x + f.fw ∧ y ≤ r ∧ r < y + f.fh
        then transformPixel s.params mode (glyphPix f (substChar c) (q - x) (r - y))
          (transformPixel s.params mode (glyphPix f (substChar c) (q - x) (r - y)) (s.pix q r))
        else s.pix q r := by
  refine (pix_withGlyph (s := s.withGlyph f c mode x y) hw hx hq hr).trans ?_
  rw [pix_withGlyph hw hx hq hr]
  by_cases hin : x ≤ q ∧ q < x + f.fw ∧ y ≤ r ∧ r < y + f.fh
  · simp only [if_pos hin]
    rfl
  · simp only [if_neg hin]

/-- A transform that is idempotent: the second drawing changes no byte. -/
theorem fbByte_withGlyph_idempotent (hw : 0 < f.fw) (hx : x + f.fw ≤ s.width)
    (ht : ∀ g cp, transformPixel s.params mode g (transformPixel s.params mode g cp)
      = transformPixel s.params mode g cp) (a : Nat) :
    ((s.withGlyph f c mode x y).withGlyph f c mode x y).fbByte a = (s.withGlyph f c mode x y).fbByte a := by
  refine fbByte_withFb_congr (m := (s.withGlyph f c mode x y).fb) (fun q r hq hr => ?_) a
  refine (pix_withGlyph_twice hw hx hq hr).trans (Eq.trans ?_ (pix_withGlyph hw hx hq hr).symm)
  rw [ht]

/-- A transform that is its own inverse: the second drawing restores every byte. -/
theorem fbByte_withGlyph_involutive (hw : 0 < f.fw) (hx : x + f.fw ≤ s.width)
    (ht : ∀ g cp, transformPixel s.params mode g (transformPixel s.params mode g cp) = cp) (a : Nat) :
    ((s.withGlyph f c mode x y).withGlyph f c mode x y).fbByte a = s.fbByte a := by
  refine fbByte_withFb_congr (s := s) (m := s.fb) (m' := ((s.withGlyph f c mode x y).withGlyph f c mode x y).fb)
    (fun q r hq hr => ?_) a
  refine (pix_withGlyph_twice hw hx hq hr).trans ?_
  rw [ht, ite_self]
  rfl

end twice

/-- The second of two drawings merges into the raster that the first has left: the refresh between them changes no
byte. -/
theorem fbByte_glyphSent_twice {s : State} {f : Font} {mode : Mode} {x y c : Nat} (n m : Nat)
    (rest rest' : List TransportEvent) (a : Nat) :
    (((s.glyphSent f c mode x y n rest).withStatus .ok).glyphSent f c mode x y m rest').fbByte a
      = ((s.withGlyph f c mode x y).withGlyph f c mode x y).fbByte a := by
  rw [glyphSent_fbByte, withGlyph_withStatus, withStatus_fbByte, State.glyphSent, withGlyph_afterSends,
    afterSends_fbByte]

/-- The transport's answers to two refreshes are those to the first and then those to the second. -/
theorem acknowledged_add {s : State} {m n : Nat} {rest : List TransportEvent} (h : s.Acknowledged (m + n) rest) :
    s.Acknowledged m (List.replicate n (.ack .ok) ++ rest) := by
  rw [State.Acknowledged, ← List.append_assoc, List.replicate_append_replicate]
  exact h

/-- Settles O27: Overwrite and the default Invert do not read the current pixel, and Xor undoes itself. -/
theorem drawingAGlyphTwice : Obligations.DrawingAGlyphTwice := by
  intro s x y c font mode f rest hc hf hwf hx hy hack
  obtain ⟨hfw, -⟩ := fontWf_pos hwf
  refine ⟨_, _, exec_dchar_acknowledged hc hf hwf hx hy (acknowledged_add hack),
    exec_dchar_acknowledged hc hf hwf hx hy rfl, ?overwrite, ?xor, ?invert⟩
  case overwrite =>
    rintro rfl a
    rw [withStatus_fbByte, fbByte_glyphSent_twice, withStatus_fbByte, glyphSent_fbByte]
    exact fbByte_withGlyph_idempotent hfw hx (fun _ _ => rfl) a
  case xor =>
    rintro rfl a
    rw [withStatus_fbByte, fbByte_glyphSent_twice]
    refine fbByte_withGlyph_involutive hfw hx (fun g cp => ?_) a
    rw [transformPixel_xor, transformPixel_xor, ← Bool.xor_assoc, Bool.xor_self, Bool.false_xor]
  case invert =>
    rintro rfl hp a
    rw [withStatus_fbByte, fbByte_glyphSent_twice, withStatus_fbByte, glyphSent_fbByte]
    refine fbByte_withGlyph_idempotent hfw hx (fun g cp => ?_) a
    rw [transformPixel_invert_default hp, transformPixel_invert_default hp]

end Sys2Proof.Machine
end

section
/-! PROOFS. The statements about DSTR: its checks, the string as DCHARs in turn, its pixels, its first failed record. -/

namespace Sys2Proof.Machine

/-! ## DSTR's checks -/

section dstr
variable {s : State} {x y len sp font : Nat} {mode : Mode} {f : Font}

theorem exec_dstr_notConfigured (hc : s.configured = false) :
    exec (.dstr x y len sp font mode) s = raise .notConfigured s := if_pos hc

theorem exec_dstr_noFont (hc : s.configured = true) (hf : fontOf s.params.fonts font = none) :
    exec (.dstr x y len sp font mode) s = raise .operandRange s := by
  simp only [exec, execDstr, hf]
  rw [if_neg (by simp [hc])]

theorem exec_dstr_tooLong (hc : s.configured = true) (hf : fontOf s.params.fonts font = some f)
    (hlen : s.params.opbCapacity < len) :
    exec (.dstr x y len sp font mode) s = raise .operandRange s := by
  simp only [exec, execDstr, hf]
  rw [if_neg (by simp [hc]), if_pos hlen]

/-- A font that breaks R151 is refused by name (U4, log 6). -/
theorem exec_dstr_refused (hc : s.configured = true) (hf : fontOf s.params.fonts font = some f)
    (hwf : fontWf f = false) (hlen : len ≤ s.params.opbCapacity) :
    exec (.dstr x y len sp font mode) s = .refused (.fontOutsideModel font) := by
  simp only [exec, execDstr, hf]
  rw [if_neg (by simp [hc]), if_neg (by omega), if_pos hwf]

end dstr

/-! ## The loop, one character at a time -/

section loop
variable {s t : State} {f : Font} {mode : Mode} {sp y c cur n : Nat} {rest : List Nat}

theorem drawString_crossing (hw : s.width < cur + f.fw) :
    drawString f mode sp y (c :: rest) cur n s = .going (s.withResult 0 n) := by
  rw [drawString, if_pos hw]

theorem drawString_below (hw : cur + f.fw ≤ s.width) (hy : s.height < y + f.fh) :
    drawString f mode sp y (c :: rest) cur n s = .ended (raise .outOfBounds s) := by
  rw [drawString, if_neg (by omega), if_pos hy]

theorem drawString_going (hw : cur + f.fw ≤ s.width) (hy : y + f.fh ≤ s.height)
    (hg : drawGlyph f c mode cur y s = .going t) :
    drawString f mode sp y (c :: rest) cur n s
      = drawString f mode sp y rest (cur + (f.fw + sp)) (n + 1) t := by
  rw [drawString, if_neg (by omega), if_neg (by omega), hg, Nat.add_assoc]

theorem drawString_ended {r : Result} (hw : cur + f.fw ≤ s.width) (hy : y + f.fh ≤ s.height)
    (hg : drawGlyph f c mode cur y s = .ended r) :
    drawString f mode sp y (c :: rest) cur n s = .ended r := by
  rw [drawString, if_neg (by omega), if_neg (by omega), hg]

theorem drawGlyph_going_width (hg : drawGlyph f c mode cur y s = .going t) : t.width = s.width := by
  rw [drawGlyph_eq, flushRows] at hg
  rcases flushEach_records (List.range' y f.fh) (s.withGlyph f c mode cur y) with ⟨tr, d, h⟩ | ⟨r, h, -⟩
  · cases h.symm.trans hg
    rfl
  · cases h.symm.trans hg

theorem dcharsInTurn_next {adv font : Nat} (h : exec (.dchar cur y c font mode) s = .next t) :
    dcharsInTurn y adv font mode (c :: rest) cur s = dcharsInTurn y adv font mode rest (cur + adv) t := by
  rw [dcharsInTurn, h]

end loop

/-! ## The glyphs that fit

The characters from the first one that crosses the right edge on do not matter. -/

/-- The first `n` characters of the string in `OPB` (R163). -/
def State.opbCodes (s : State) (n : Nat) : List Nat := (List.range n).map fun a => (s.opbByte a).toNat

@[simp] theorem length_opbCodes (s : State) (n : Nat) : (s.opbCodes n).length = n := by simp [State.opbCodes]

theorem take_opbCodes (s : State) {m n : Nat} (h : m ≤ n) : (s.opbCodes n).take m = s.opbCodes m := by
  rw [State.opbCodes, ← List.map_take, List.take_range, Nat.min_eq_left h, State.opbCodes]

theorem getElem?_opbCodes (s : State) {m n : Nat} (h : m < n) :
    (s.opbCodes n)[m]? = some (s.opbByte m).toNat := by
  simp [State.opbCodes, h]

theorem glyphsThatFit_le_len (W fw sp cur len : Nat) : glyphsThatFit W fw sp cur len ≤ len := by
  rw [glyphsThatFit]
  split <;> omega

/-- Of the glyphs that fit all fit. -/
theorem glyphsThatFit_self (W fw sp cur len : Nat) :
    glyphsThatFit W fw sp cur (glyphsThatFit W fw sp cur len) = glyphsThatFit W fw sp cur len := by
  by_cases hx : cur + fw ≤ W
  · simp [glyphsThatFit, hx]
  · simp [glyphsThatFit, hx]

/-- If a string fits, so does its first glyph, and the others after it. -/
theorem glyphsThatFit_all_succ {W fw sp cur len : Nat} (hf : 0 < fw)
    (h : len + 1 ≤ glyphsThatFit W fw sp cur (len + 1)) :
    cur + fw ≤ W ∧ len ≤ glyphsThatFit W fw sp (cur + (fw + sp)) len := by
  have hx : cur + fw ≤ W := by
    by_contra hx
    rw [glyphsThatFit_zero (by omega)] at h
    omega
  rw [glyphsThatFit_succ hf hx] at h
  exact ⟨hx, by omega⟩

/-- The loop ends at the first glyph that crosses the right edge (R163). -/
theorem drawString_take {f : Font} {mode : Mode} {sp y : Nat} (hf : 0 < f.fw) (chars : List Nat) (cur n : Nat)
    (s : State) :
    drawString f mode sp y (chars.take (glyphsThatFit s.width f.fw sp cur chars.length)) cur n s
      = drawString f mode sp y chars cur n s := by
  induction chars generalizing cur n s with
  | nil => rw [List.take_nil]
  | cons c rest ih =>
    by_cases hw : s.width < cur + f.fw
    · rw [glyphsThatFit_zero hw, drawString_crossing hw]
      rfl
    replace hw : cur + f.fw ≤ s.width := by omega
    rw [List.length_cons, glyphsThatFit_succ hf hw, List.take_succ_cons]
    by_cases hy : s.height < y + f.fh
    · rw [drawString_below hw hy, drawString_below hw hy]
    replace hy : y + f.fh ≤ s.height := by omega
    cases hg : drawGlyph f c mode cur y s with
    | ended r => rw [drawString_ended hw hy hg, drawString_ended hw hy hg]
    | going t =>
      rw [drawString_going hw hy hg, drawString_going hw hy hg, ← drawGlyph_going_width hg]
      exact ih _ _ t

section fitting
variable {s : State} {x y len sp font : Nat} {mode : Mode} {f : Font}

/-- DSTR past its checks is its loop over the glyphs that fit. -/
theorem exec_dstr_fitting (hc : s.configured = true) (hf : fontOf s.params.fonts font = some f)
    (hwf : fontWf f = true) (hlen : len ≤ s.params.opbCapacity) :
    exec (.dstr x y len sp font mode) s
      = finish (drawString f mode sp y (s.opbCodes (glyphsThatFit s.width f.fw sp x len)) x 0 s) := by
  have take := drawString_take (mode := mode) (sp := sp) (y := y) (fontWf_pos hwf).1 (s.opbCodes len) x 0 s
  rw [length_opbCodes, take_opbCodes s (glyphsThatFit_le_len ..)] at take
  rw [exec_dstr_inside hc hf hwf hlen, take]
  rfl

/-- No glyph fits: nothing is drawn. -/
theorem exec_dstr_nothing (hc : s.configured = true) (hf : fontOf s.params.fonts font = some f)
    (hwf : fontWf f = true) (hlen : len ≤ s.params.opbCapacity)
    (hnone : glyphsThatFit s.width f.fw sp x len = 0) :
    exec (.dstr x y len sp font mode) s = complete (s.withResult 0 0) := by
  rw [exec_dstr_fitting hc hf hwf hlen, hnone]
  rfl

/-- Some glyph fits the width, but none the height. -/
theorem exec_dstr_outOfBounds (hc : s.configured = true) (hf : fontOf s.params.fonts font = some f)
    (hwf : fontWf f = true) (hlen : len ≤ s.params.opbCapacity)
    (hsome : 0 < glyphsThatFit s.width f.fw sp x len) (hy : s.height < y + f.fh) :
    exec (.dstr x y len sp font mode) s = raise .outOfBounds s := by
  have hx : x + f.fw ≤ s.width := by
    by_contra hx
    rw [glyphsThatFit_zero (by omega)] at hsome
    omega
  rw [exec_dstr_fitting hc hf hwf hlen]
  cases hchars : s.opbCodes (glyphsThatFit s.width f.fw sp x len) with
  | nil =>
    have := congrArg List.length hchars
    rw [length_opbCodes] at this
    exact absurd this hsome.ne'
  | cons c rest => rw [drawString_below hx hy]; rfl

end fitting

/-- Settles O28, check by check. -/
theorem dstrChecksInOrder : Obligations.DstrChecksInOrder := by
  refine fun s x y len sp font mode => ⟨exec_dstr_notConfigured, fun hc hbad => ?operandRange,
    fun f hc hf hwf hlen => ⟨fun hnone => ?nothing, fun h0 hx hy => ?outOfBounds⟩⟩
  case operandRange =>
    cases hf : fontOf s.params.fonts font with
    | none => exact exec_dstr_noFont hc hf
    | some f => exact exec_dstr_tooLong hc hf (hbad.resolve_left (by simp [hf]))
  case nothing =>
    refine exec_dstr_nothing hc hf hwf hlen ?_
    rcases hnone with rfl | hx
    · exact Nat.le_zero.mp (glyphsThatFit_le_len ..)
    · exact glyphsThatFit_zero hx
  case outOfBounds =>
    refine exec_dstr_outOfBounds hc hf hwf hlen ?_ hy
    rw [glyphsThatFit, if_pos hx]
    exact Nat.lt_min.mpr ⟨h0, Nat.succ_pos _⟩

/-! ## The refusal by name -/

theorem endsDrawing.ne_refused {P : State → Prop} {s : State} {r : Result} (h : endsDrawing P s r) (e : Refusal) :
    r ≠ .refused e := by
  rcases h with ⟨u, -, -, rfl⟩ | ⟨u, -, -, rfl⟩ | ⟨u, -, -, rfl⟩ | ⟨-, rfl⟩ <;> simp

/-- A command that is refused is so for a font that breaks R151. -/
theorem exec_refused {i : Instr} {s : State} {e : Refusal} (h : exec i s = .refused e) :
    ∃ font f, fontOf s.params.fonts font = some f ∧ fontWf f = false := by
  cases i with
  | init w hh v =>
    rcases execInit_cases w hh v s with h' | ⟨-, h'⟩ | ⟨-, -, -, -, -, h'⟩ <;> cases h'.symm.trans h
  | clear v =>
    rcases execClear_cases v s with ⟨-, h'⟩ | ⟨-, h'⟩
    · cases h'.symm.trans h
    · exact absurd h (h'.ne_refused e)
  | getpx x y =>
    rcases execGetpx_cases x y s with ⟨_, -, h'⟩ | ⟨-, -, -, h'⟩ <;> cases h'.symm.trans h
  | wrreg x y w hh =>
    rcases execWrreg_cases x y w hh s with ⟨_, -, h'⟩ | ⟨-, h'⟩ | ⟨-, -, -, -, h'⟩
    · cases h'.symm.trans h
    · cases h'.symm.trans h
    · exact absurd h (h'.ne_refused e)
  | dchar x y c font m =>
    rcases execDchar_cases x y c font m s with ⟨_, -, h'⟩ | ⟨f, hf, hwf, -⟩ | ⟨_, -, -, -, -, h'⟩
    · cases h'.symm.trans h
    · exact ⟨font, f, hf, hwf⟩
    · exact absurd h (h'.ne_refused e)
  | dstr x y l sp font m =>
    rcases execDstr_cases (P := fun _ => True) (fun _ _ _ _ hu => hu) x y l sp font m s trivial
        (fun _ _ _ _ _ _ _ _ _ _ _ => trivial)
      with ⟨_, -, h'⟩ | ⟨f, hf, hwf, -⟩ | ⟨_, _, -, -, h'⟩ | h'
    · cases h'.symm.trans h
    · exact ⟨font, f, hf, hwf⟩
    · cases h'.symm.trans h
    · exact absurd h (endsDrawing.ne_refused (.inr h') e)
  | xlate row =>
    rcases execXlate_cases row s with ⟨_, -, h'⟩ | ⟨-, -, h'⟩ <;> cases h'.symm.trans h
  | pageof y =>
    rcases execPageof_cases y s with ⟨_, -, h'⟩ | ⟨-, -, h'⟩ <;> cases h'.symm.trans h

/-- Settles O43: the two commands' checks, and no other outcome of a command is a refusal. -/
theorem onlyAFontOutsideTheModelIsRefused : Obligations.OnlyAFontOutsideTheModelIsRefused := by
  refine ⟨fun _ _ _ _ _ _ _ => exec_dchar_refused, fun _ _ _ _ _ _ _ _ => exec_dstr_refused,
    fun i s e h hp => ?_⟩
  obtain ⟨font, f, hf, hwf⟩ := exec_refused h
  exact absurd (hp font f hf) (by simp [hwf])

/-! ## A string as DCHARs in turn

A DCHAR writes `STATUS` where a turn of DSTR's loop does not; the loop does not read it. -/

section inTurn
variable {s : State} {f : Font} {mode : Mode} {sp y c cur n font : Nat} {chars : List Nat}
  {rest : List TransportEvent}

theorem length_glyphSent_sends (s : State) (f : Font) (c : Nat) (mode : Mode) (x y n : Nat)
    (rest : List TransportEvent) : (s.glyphSent f c mode x y n rest).sends.length = s.sends.length + n := by
  simp [State.glyphSent, State.withGlyph]

/-- A turn of the loop whose glyph is acknowledged goes on from the state that the DCHAR leaves. -/
theorem finish_drawString_dchar (hx : cur + f.fw ≤ s.width) (hy : y + f.fh ≤ s.height)
    (hack : s.Acknowledged f.fh rest) :
    finish (drawString f mode sp y (c :: chars) cur n s)
      = finish (drawString f mode sp y chars (cur + (f.fw + sp)) (n + 1)
        ((s.glyphSent f c mode cur y f.fh rest).withStatus .ok)) := by
  rw [drawString_going hx hy (drawGlyph_acknowledged hack), finish_drawString_withStatus]

/-- A string all of whose glyphs fit and are acknowledged: the DCHARs in turn, then the count in `RESULT`. -/
theorem finish_drawString_acknowledged (hc : s.configured = true) (hf : fontOf s.params.fonts font = some f)
    (hwf : fontWf f = true) (hfit : chars.length ≤ glyphsThatFit s.width f.fw sp cur chars.length)
    (hy : 0 < chars.length → y + f.fh ≤ s.height) (hack : s.Acknowledged (chars.length * f.fh) rest) :
    ∃ u, dcharsInTurn y (f.fw + sp) font mode chars cur s = .next u ∧
      finish (drawString f mode sp y chars cur n s) = complete (u.withResult 0 (n + chars.length)) ∧
      u.transport = rest ∧ u.sends.length = s.sends.length + chars.length * f.fh := by
  induction chars generalizing s cur n with
  | nil => exact ⟨s, rfl, rfl, by simpa [State.Acknowledged] using hack, by simp⟩
  | cons c cs ih =>
    obtain ⟨hx, hfit'⟩ := glyphsThatFit_all_succ (fontWf_pos hwf).1 hfit
    replace hy := hy (Nat.succ_pos _)
    have hack' : s.Acknowledged f.fh (List.replicate (cs.length * f.fh) (TransportEvent.ack .ok) ++ rest) :=
      acknowledged_add (by rwa [Nat.add_comm, ← Nat.succ_mul])
    obtain ⟨u, hturn, hloop, htr, hsends⟩ := ih
      (s := (s.glyphSent f c mode cur y f.fh
        (List.replicate (cs.length * f.fh) (TransportEvent.ack .ok) ++ rest)).withStatus .ok)
      (n := n + 1) hc hf hfit' (fun _ => hy) rfl
    refine ⟨u, ?_, ?_, htr, ?_⟩
    · rw [dcharsInTurn_next (exec_dchar_acknowledged hc hf hwf hx hy hack'), hturn]
    · rw [finish_drawString_dchar hx hy hack', hloop, List.length_cons, Nat.add_assoc, Nat.add_comm 1]
    · rw [hsends, withStatus_sends, length_glyphSent_sends, List.length_cons, Nat.succ_mul]
      omega

/-- A string all of whose glyphs fit, record `k` failing: the DCHARs up to the glyph of that record. -/
theorem finish_drawString_failed {k : Nat} (hc : s.configured = true) (hf : fontOf s.params.fonts font = some f)
    (hwf : fontWf f = true) (hfit : chars.length ≤ glyphsThatFit s.width f.fw sp cur chars.length)
    (hy : y + f.fh ≤ s.height) (hk : k < chars.length * f.fh) (hack : s.AcknowledgedThen k (.ack .fail) rest) :
    ∃ u, finish (drawString f mode sp y chars cur n s) = .next u ∧
      dcharsInTurn y (f.fw + sp) font mode (chars.take (k / f.fh + 1)) cur s = .next u ∧
      u.status = 2 ∧ u.result = s.result ∧ u.transport = rest ∧
      u.sends.length = s.sends.length + (k + 1) := by
  induction chars generalizing s cur n k with
  | nil => simp at hk
  | cons c cs ih =>
    obtain ⟨hfw, hfh⟩ := fontWf_pos hwf
    obtain ⟨hx, hfit'⟩ := glyphsThatFit_all_succ hfw hfit
    rw [List.take_succ_cons]
    by_cases hfirst : k < f.fh
    · refine ⟨(s.glyphSent f c mode cur y (k + 1) rest).withStatus .transportFailure, ?_, ?_, rfl, rfl, rfl, ?_⟩
      · rw [drawString_ended hx hy (drawGlyph_stops hfirst (by simp) hack)]
        rfl
      · rw [Nat.div_eq_of_lt hfirst, List.take_zero,
          dcharsInTurn_next (exec_dchar_stops hc hf hwf hx hy hfirst (by simp) hack)]
        rfl
      · rw [withStatus_sends, length_glyphSent_sends]
    · obtain ⟨j, rfl⟩ := Nat.exists_eq_add_of_le (Nat.not_lt.mp hfirst)
      have hack' : s.Acknowledged f.fh (List.replicate j (TransportEvent.ack .ok) ++ .ack .fail :: rest) :=
        acknowledged_add hack
      rw [List.length_cons, Nat.succ_mul, Nat.add_comm] at hk
      obtain ⟨u, hloop, hturn, hst, hres, htr, hsends⟩ := ih
        (s := (s.glyphSent f c mode cur y f.fh
          (List.replicate j (TransportEvent.ack .ok) ++ .ack .fail :: rest)).withStatus .ok)
        (n := n + 1) (k := j) hc hf hfit' hy (Nat.lt_of_add_lt_add_right hk) rfl
      refine ⟨u, ?_, ?_, hst, hres, htr, ?_⟩
      · rw [finish_drawString_dchar hx hy hack', hloop]
      · rw [Nat.add_div_left _ hfh, dcharsInTurn_next (exec_dchar_acknowledged hc hf hwf hx hy hack'), hturn]
      · rw [hsends, withStatus_sends, length_glyphSent_sends]
        omega

end inTurn

/-- Settles O29: the loop over the glyphs that fit, as DCHARs in turn. -/
theorem dstrIsSuccessiveDchars : Obligations.DstrIsSuccessiveDchars := by
  intro s x y len sp font mode f rest hc hf hwf hlen hy hack
  have hcount : glyphsThatFit s.width f.fw sp x len < 2 ^ 16 := by
    have := glyphsThatFit_le (W := s.width) (sp := sp) (cur := x) (len := len) (fontWf_pos hwf).1
    have := width_lt s
    omega
  obtain ⟨u, hturn, hloop, htr, hsends⟩ := finish_drawString_acknowledged (mode := mode) (n := 0)
    (chars := s.opbCodes (glyphsThatFit s.width f.fw sp x len)) hc hf hwf
    (by rw [length_opbCodes, glyphsThatFit_self]) (by rwa [length_opbCodes]) (by rwa [length_opbCodes])
  rw [length_opbCodes] at hsends
  rw [length_opbCodes, Nat.zero_add, ← exec_dstr_fitting hc hf hwf hlen] at hloop
  refine ⟨u, packResult 0 (glyphsThatFit s.width f.fw sp x len), hturn, hloop, ?_, ?_, htr, hsends⟩
  · rw [resultA_packResult, BitVec.toNat_ofNat, Nat.mod_eq_of_lt hcount]
  · rw [resultB_packResult]
    rfl

/-- Settles O31: of the DCHARs in turn, the one whose record fails is the last. -/
theorem dstrStopsAtTheFirstFailure : Obligations.DstrStopsAtTheFirstFailure := by
  intro s x y len sp font mode f k rest hc hf hwf hlen hy hk hack
  obtain ⟨u, hloop, hturn, hends⟩ := finish_drawString_failed (mode := mode) (n := 0)
    (chars := s.opbCodes (glyphsThatFit s.width f.fw sp x len)) hc hf hwf
    (by rw [length_opbCodes, glyphsThatFit_self]) hy (by rwa [length_opbCodes]) hack
  rw [take_opbCodes s (Nat.div_lt_of_lt_mul (by rwa [Nat.mul_comm]))] at hturn
  exact ⟨u, (exec_dstr_fitting hc hf hwf hlen).trans hloop, hturn, hends⟩

/-! ## The string, pixel by pixel

The cells of the glyphs do not overlap, since the cursor advances by at least a glyph's width. -/

section cells
variable {s : State} {f : Font} {mode : Mode} {sp y cur c r : Nat} {chars : List Nat}

/-- A pixel or pad bit in no glyph's cell is unchanged. -/
theorem pix_withGlyphs_outside (hf : 0 < f.fw)
    (hfit : chars.length ≤ glyphsThatFit s.width f.fw sp cur chars.length) (hc : c < 8 * s.bpr) (hr : r < s.height)
    (hout : ∀ n, n < chars.length →
      ¬ (cur + n * (f.fw + sp) ≤ c ∧ c < cur + n * (f.fw + sp) + f.fw ∧ y ≤ r ∧ r < y + f.fh)) :
    (s.withGlyphs f mode (f.fw + sp) y chars cur).pix c r = s.pix c r := by
  induction chars generalizing s cur with
  | nil => rfl
  | cons k ks ih =>
    obtain ⟨hx, hfit'⟩ := glyphsThatFit_all_succ hf hfit
    have hfirst : ¬ (cur ≤ c ∧ c < cur + f.fw ∧ y ≤ r ∧ r < y + f.fh) := by
      simpa using hout 0 (Nat.succ_pos _)
    have hlater : ∀ n, n < ks.length → ¬ (cur + (f.fw + sp) + n * (f.fw + sp) ≤ c ∧
        c < cur + (f.fw + sp) + n * (f.fw + sp) + f.fw ∧ y ≤ r ∧ r < y + f.fh) := fun n hn => by
      have := hout (n + 1) (Nat.succ_lt_succ hn)
      rwa [Nat.succ_mul, Nat.add_comm (n * _), ← Nat.add_assoc] at this
    calc (s.withGlyphs f mode (f.fw + sp) y (k :: ks) cur).pix c r
        = (s.withGlyph f k mode cur y).pix c r := ih (s := s.withGlyph f k mode cur y) hfit' hc hr hlater
      _ = s.pix c r := by rw [pix_withGlyph hf hx hc hr, if_neg hfirst]

/-- A pixel in the cell of glyph `n` is the transform of the glyph's pixel and of the one that was there. -/
theorem pix_withGlyphs_cell (hf : 0 < f.fw)
    (hfit : chars.length ≤ glyphsThatFit s.width f.fw sp cur chars.length) (hc : c < 8 * s.bpr) (hr : r < s.height)
    {n k : Nat} (hn : chars[n]? = some k) (hlo : cur + n * (f.fw + sp) ≤ c)
    (hhi : c < cur + n * (f.fw + sp) + f.fw) (hy : y ≤ r) (hy' : r < y + f.fh) :
    (s.withGlyphs f mode (f.fw + sp) y chars cur).pix c r
      = transformPixel s.params mode (glyphPix f (substChar k) (c - (cur + n * (f.fw + sp))) (r - y))
          (s.pix c r) := by
  induction chars generalizing s cur n with
  | nil => simp at hn
  | cons k' ks ih =>
    obtain ⟨hx, hfit'⟩ := glyphsThatFit_all_succ hf hfit
    cases n with
    | zero =>
      obtain rfl : k' = k := by simpa using hn
      rw [Nat.zero_mul, Nat.add_zero] at hlo hhi ⊢
      calc (s.withGlyphs f mode (f.fw + sp) y (k' :: ks) cur).pix c r
          = (s.withGlyph f k' mode cur y).pix c r :=
            pix_withGlyphs_outside (s := s.withGlyph f k' mode cur y) hf hfit' hc hr
              fun n _ h => by omega
        _ = transformPixel s.params mode (glyphPix f (substChar k') (c - cur) (r - y)) (s.pix c r) := by
            rw [pix_withGlyph hf hx hc hr, if_pos ⟨hlo, hhi, hy, hy'⟩]
    | succ n =>
      have hcell : cur + (n + 1) * (f.fw + sp) = cur + (f.fw + sp) + n * (f.fw + sp) := by
        rw [Nat.succ_mul]
        omega
      rw [hcell] at hlo hhi ⊢
      have hlater := ih (s := s.withGlyph f k' mode cur y) hfit' hc hr (by simpa using hn) hlo hhi
      rwa [pix_withGlyph hf hx hc hr, if_neg (by omega)] at hlater

end cells

/-- A DSTR that ends with OK has passed its checks, and its glyphs, if it has any, fit the height. -/
theorem exec_dstr_ok {s t : State} {x y len sp font : Nat} {mode : Mode} {f : Font} (hc : s.configured = true)
    (hf : fontOf s.params.fonts font = some f) (h : exec (.dstr x y len sp font mode) s = .next t)
    (hok : t.status = 0) :
    fontWf f = true ∧ len ≤ s.params.opbCapacity ∧
      (0 < glyphsThatFit s.width f.fw sp x len → y + f.fh ≤ s.height) := by
  have not_raised {e : Status} (he : exec (.dstr x y len sp font mode) s = raise e s) : statusCode e = 0 := by
    cases he.symm.trans h
    exact hok
  have hlen : len ≤ s.params.opbCapacity := by
    by_contra hlong
    exact absurd (not_raised (exec_dstr_tooLong hc hf (by omega))) (by decide)
  have hwf : fontWf f = true := by
    by_contra hwf
    cases (exec_dstr_refused hc hf (by simpa using hwf) hlen).symm.trans h
  refine ⟨hwf, hlen, fun hsome => ?_⟩
  by_contra hy
  exact absurd (not_raised (exec_dstr_outOfBounds hc hf hwf hlen hsome (by omega))) (by decide)

/-- The raster that a DSTR leaves, every record acknowledged: that of its glyphs. -/
theorem exec_dstr_pix {s t : State} {x y len sp font : Nat} {mode : Mode} {f : Font} {rest : List TransportEvent}
    (hc : s.configured = true) (hf : fontOf s.params.fonts font = some f) (hwf : fontWf f = true)
    (hlen : len ≤ s.params.opbCapacity) (hy : 0 < glyphsThatFit s.width f.fw sp x len → y + f.fh ≤ s.height)
    (hack : s.Acknowledged (glyphsThatFit s.width f.fw sp x len * f.fh) rest)
    (h : exec (.dstr x y len sp font mode) s = .next t) (c r : Nat) :
    t.pix c r = (s.withGlyphs f mode (f.fw + sp) y (s.opbCodes (glyphsThatFit s.width f.fw sp x len)) x).pix c r := by
  rcases Nat.eq_zero_or_pos (glyphsThatFit s.width f.fw sp x len) with hnone | hsome
  · cases (exec_dstr_nothing hc hf hwf hlen hnone).symm.trans h
    rw [hnone]
    rfl
  · obtain ⟨rs, m, hloop⟩ := drawString_raster (mode := mode) (fontWf_pos hwf).1
      (s.opbCodes (glyphsThatFit s.width f.fw sp x len)) x 0 s (by rw [length_opbCodes, glyphsThatFit_self])
      (hy hsome) rest (by rwa [length_opbCodes])
    rw [exec_dstr_fitting hc hf hwf hlen, hloop] at h
    cases h
    simp only [withStatus_pix, withResult_pix, afterSends_pix]

/-- Settles O30: the raster of the glyphs that fit, by their cells. -/
theorem dstrPixels : Obligations.DstrPixels := by
  intro s t x y len sp font mode f rest hc hf hack h hok c r hcol hr
  obtain ⟨hwf, hlen, hy⟩ := exec_dstr_ok hc hf h hok
  obtain ⟨hfw, -⟩ := fontWf_pos hwf
  have hfit : (s.opbCodes (glyphsThatFit s.width f.fw sp x len)).length ≤ glyphsThatFit s.width f.fw sp x
      (s.opbCodes (glyphsThatFit s.width f.fw sp x len)).length := by
    rw [length_opbCodes, glyphsThatFit_self]
  rw [exec_dstr_pix hc hf hwf hlen hy hack h]
  refine ⟨fun n hn => pix_withGlyphs_cell hfw hfit hcol hr (getElem?_opbCodes s hn), fun hout => ?_⟩
  exact pix_withGlyphs_outside hfw hfit hcol hr (by rwa [length_opbCodes])

end Sys2Proof.Machine
end

section
/-! PROOFS. The statements about the Address Translator: the row map, XLATE and PAGEOF. -/

namespace Sys2Proof.Machine

/-! ## The row map

An even row `2j` maps to `j`, an odd row `2j + 1` to `j` in the second half (R182). -/

theorem toPhysical_linear (h r : Nat) : toPhysical .linear h r = r := rfl

theorem toPhysical_of_even (h : Nat) {r : Nat} (hr : r % 2 = 0) : toPhysical .interleaved h r = r / 2 := if_pos hr

theorem toPhysical_of_odd (h : Nat) {r : Nat} (hr : r % 2 = 1) :
    toPhysical .interleaved h r = (r - 1) / 2 + h / 2 := if_neg (by omega)

theorem toPhysical_two_mul (h j : Nat) : toPhysical .interleaved h (2 * j) = j := by
  rw [toPhysical_of_even h (by omega), Nat.mul_div_cancel_left j Nat.two_pos]

theorem toPhysical_two_mul_add_one (h j : Nat) : toPhysical .interleaved h (2 * j + 1) = j + h / 2 := by
  rw [toPhysical_of_odd h (by omega), Nat.add_sub_cancel, Nat.mul_div_cancel_left j Nat.two_pos]

/-- A bound on the physical row that needs no even height. -/
theorem toPhysical_le (v : Variant) (h r : Nat) : toPhysical v h r ≤ r + h := by
  cases v with
  | linear => exact Nat.le_add_right r h
  | interleaved =>
    rcases Nat.mod_two_eq_zero_or_one r with hr | hr
    · rw [toPhysical_of_even h hr]
      omega
    · rw [toPhysical_of_odd h hr]
      omega

/-- Settles O34: even and odd rows fill the two halves; under an odd height the last row is even and meets row 1. -/
theorem interleavedMapIsABijection : Obligations.InterleavedMapIsABijection := by
  refine ⟨fun m r hr => ?inverse, fun m p hp => ⟨fun hlow => ⟨by omega, toPhysical_two_mul _ p⟩,
    fun hhigh => ⟨by omega, ?secondHalf⟩⟩, fun m => ⟨toPhysical_two_mul _ m, ?collision⟩, toPhysical_linear⟩
  case inverse =>
    obtain ⟨j, rfl | rfl⟩ := Nat.even_or_odd' r
    · rw [toPhysical_two_mul]
      omega
    · rw [toPhysical_two_mul_add_one]
      omega
  case secondHalf =>
    rw [toPhysical_two_mul_add_one]
    omega
  case collision => exact (toPhysical_two_mul_add_one (2 * m + 1) 0).trans (by omega)

/-! ## XLATE and PAGEOF -/

/-- A number that fits 16 bits is read back from `RESULT.A` (R31). -/
theorem toNat_resultA_packResult (b : Nat) {a : Nat} (ha : a < 2 ^ 16) : (resultA (packResult b a)).toNat = a := by
  rw [resultA_packResult, BitVec.toNat_ofNat, Nat.mod_eq_of_lt ha]

/-- A number that fits 16 bits is read back from `RESULT.B` (R31). -/
theorem toNat_resultB_packResult {b : Nat} (a : Nat) (hb : b < 2 ^ 16) : (resultB (packResult b a)).toNat = b := by
  rw [resultB_packResult, BitVec.toNat_ofNat, Nat.mod_eq_of_lt hb]

section checks
variable {s : State} {row : Nat}

theorem exec_xlate_notConfigured (hc : s.configured = false) : exec (.xlate row) s = raise .notConfigured s :=
  if_pos hc

theorem exec_xlate_outOfBounds (hc : s.configured = true) (hrow : s.height ≤ row) :
    exec (.xlate row) s = raise .outOfBounds s :=
  (if_neg (by simp [hc])).trans (if_pos hrow)

theorem exec_xlate_answers (hc : s.configured = true) (hrow : row < s.height) :
    exec (.xlate row) s = complete (s.withResult 0 (toPhysical s.cfgVariant s.height row)) :=
  (if_neg (by simp [hc])).trans (if_neg (Nat.not_le.mpr hrow))

theorem exec_pageof_notConfigured (hc : s.configured = false) : exec (.pageof row) s = raise .notConfigured s :=
  if_pos hc

theorem exec_pageof_outOfBounds (hc : s.configured = true) (hrow : s.height ≤ row) :
    exec (.pageof row) s = raise .outOfBounds s :=
  (if_neg (by simp [hc])).trans (if_pos hrow)

theorem exec_pageof_answers (hc : s.configured = true) (hrow : row < s.height) :
    exec (.pageof row) s = complete (s.withResult (pageIndex row) (pageBit row)) :=
  (if_neg (by simp [hc])).trans (if_neg (Nat.not_le.mpr hrow))

end checks

/-- Settles O32: the height is below 4096, so `RESULT.A` holds the physical row whole. -/
theorem xlateAnswersThePhysicalRow : Obligations.XlateAnswersThePhysicalRow := by
  refine fun s row => ⟨exec_xlate_notConfigured, exec_xlate_outOfBounds, fun hc hrow => ?answer⟩
  have ha : (resultA (packResult 0 (toPhysical s.cfgVariant s.height row))).toNat
      = toPhysical s.cfgVariant s.height row := by
    refine toNat_resultA_packResult 0 ?_
    have := toPhysical_le s.cfgVariant s.height row
    have := height_lt s
    omega
  refine ⟨_, exec_xlate_answers hc hrow, toNat_resultB_packResult _ (by decide), fun hv => ?linear,
    fun hv heven => ?even, fun hv hodd => ?odd⟩
  case linear => exact ha.trans (by rw [hv, toPhysical_linear])
  case even => exact ha.trans (by rw [hv, toPhysical_of_even _ heven])
  case odd => exact ha.trans (by rw [hv, toPhysical_of_odd _ hodd])

/-- Settles O33: the page of a row below 4096 and its in-page bit fit the halves of `RESULT`. -/
theorem pageofAnswersPageAndBit : Obligations.PageofAnswersPageAndBit := by
  refine fun s y => ⟨exec_pageof_notConfigured, exec_pageof_outOfBounds, fun hc hy => ?answer⟩
  have := height_lt s
  have hpage : pageIndex y < 2 ^ 16 := by
    unfold pageIndex
    omega
  have hbit : pageBit y < 2 ^ 16 := by
    unfold pageBit
    omega
  exact ⟨_, exec_pageof_answers hc hy, toNat_resultB_packResult _ hpage, toNat_resultA_packResult _ hbit⟩

end Sys2Proof.Machine
end

section
/-! PROOFS. The statement about the transport boundary: what the records of a command show. -/

namespace Sys2Proof.Machine

/-! ## The records of a refresh step

A refresh step reads one raster, and its records show rows of it, whichever way it ends (R203). -/

/-- The record is a data record with a whole row of the raster of `v`, at the row's physical address in the geometry
of `s` (R202, R203). -/
def showsRowOf (s v : State) (r : SendRecord) : Prop :=
  ∃ row, row < s.height ∧ r.isCommand = false ∧ r.addr = toPhysical s.cfgVariant s.height row ∧
    r.bytes = rowBytes v row ∧ r.bytes.length = s.bpr

/-- The record of a row of `w` shows that row of every state with the same record of it. -/
theorem rowRecord_showsRowOf {s v w : State} {row : Nat} (hrow : row < s.height)
    (hv : rowRecord v row = rowRecord w row) (hb : w.bpr = s.bpr) (hvar : w.cfgVariant = s.cfgVariant)
    (hh : w.height = s.height) : showsRowOf s v (rowRecord w row) := by
  refine ⟨row, hrow, rfl, ?_, congrArg SendRecord.bytes hv.symm, ?_⟩
  · simp [rowRecord, hvar, hh]
  · simp [rowRecord, rowBytes, hb]

/-- The records that a refresh step adds; and unless it is abandoned, it leaves the raster that it reads. -/
theorem finish_flushRows_records {y n : Nat} {v t : State} (h : finish (flushRows y n v) = .next t) :
    ∃ rows : List Nat, (∀ row ∈ rows, row < y + n) ∧ t.sends = v.sends ++ rows.map (rowRecord v) ∧
      (t.resets = v.resets → rowRecord t = rowRecord v) := by
  have inside : ∀ row ∈ List.range' y n, row < y + n := fun row hrow => (List.mem_range'_1.mp hrow).2
  rw [flushRows] at h
  rcases flushEach_cases (List.range' y n) v with ⟨tr, d, -, e⟩ | ⟨k, tr, d, -, -, e | e⟩ | ⟨-, e⟩ <;>
    rw [e] at h <;> cases h
  · exact ⟨_, inside, rfl, fun _ => rfl⟩
  · exact ⟨_, fun row hrow => inside row (List.mem_of_mem_take hrow), rfl, fun _ => rfl⟩
  · exact ⟨_, fun row hrow => inside row (List.mem_of_mem_take hrow), rfl,
      fun hr => absurd hr (Nat.succ_ne_self _)⟩

/-- A refresh step with answers enough, all of them `ok`, leaves the raster that it reads. -/
theorem finish_flushRows_acknowledged {y n m : Nat} {v : State} (hn : n ≤ m)
    (hack : v.transport = List.replicate m (.ack .ok)) :
    ∃ t, finish (flushRows y n v) = .next t ∧ rowRecord t = rowRecord v := by
  have hrows : v.Acknowledged (List.range' y n).length (List.replicate (m - n) (.ack .ok)) := by
    rw [State.Acknowledged, hack, List.length_range', List.replicate_append_replicate, Nat.add_sub_cancel' hn]
  rw [flushRows, flushEach_ok hrows]
  exact ⟨_, rfl, rfl⟩

/-! ## Commands with one refresh step

CLEAR, WRREG and DCHAR store into `FB` first and then refresh some rows, if their checks pass. The store does not
depend on the transport. -/

/-- Whatever the transport answers, the command is the store of `m` into `FB` and the refresh of some rows. -/
def refreshesOnce (i : Instr) (s : State) (m : Memory) : Prop :=
  ∃ y n, y + n ≤ s.height ∧
    ∀ tr, exec i (s.withTransport tr) = finish (flushRows y n ((s.withFb m).withTransport tr))

/-- INIT, GETPX, XLATE and PAGEOF send nothing. -/
theorem exec_sends_nothing {i : Instr} {s t : State}
    (hi : (∃ w h v, i = .init w h v) ∨ (∃ x y, i = .getpx x y) ∨ (∃ row, i = .xlate row) ∨ ∃ y, i = .pageof y)
    (h : exec i s = .next t) : t.sends = s.sends := by
  rcases hi with ⟨w, k, v, rfl⟩ | hi
  · rcases execInit_cases w k v s with e | ⟨-, e⟩ | ⟨-, -, -, -, -, e⟩ <;> cases h.symm.trans e <;> rfl
  · obtain ⟨answering, -⟩ := framebufferStoresStayInTheirBytes
    exact (answering i s t hi h).2

/-- A WRREG that answers a next state sends nothing or refreshes once (R136). -/
theorem exec_wrreg_refreshes {s t : State} {x y w k : Nat} (h : exec (.wrreg x y w k) s = .next t) :
    t.sends = s.sends ∨ ∃ m, refreshesOnce (.wrreg x y w k) s m := by
  have silent {u : State} (e : exec (.wrreg x y w k) s = .next u) (hu : u.sends = s.sends) : t.sends = s.sends := by
    cases h.symm.trans e
    exact hu
  by_cases hc : s.configured = false
  · exact .inl (silent (exec_wrreg_notConfigured hc) rfl)
  replace hc : s.configured = true := by simpa using hc
  by_cases hcap : s.params.opbCapacity < k * ceil8 w
  · exact .inl (silent (exec_wrreg_operandRange hc hcap) rfl)
  replace hcap := Nat.not_lt.mp hcap
  by_cases hout : s.width < x + w ∨ s.height < y + k
  · exact .inl (silent (exec_wrreg_outOfBounds hc hcap hout) rfl)
  obtain ⟨hx, hy⟩ : x + w ≤ s.width ∧ y + k ≤ s.height := by omega
  by_cases hempty : w = 0 ∨ k = 0
  · exact .inl (silent (exec_wrreg_empty hc hcap hx hy hempty) rfl)
  · exact .inr ⟨(s.withRegion x y w k).fb, y, k, hy, fun tr =>
      exec_wrreg_inside (s := s.withTransport tr) hc hcap hx hy (by omega) (by omega)⟩

/-- A DCHAR that answers a next state sends nothing or refreshes once (R160). -/
theorem exec_dchar_refreshes {s t : State} {x y c font : Nat} {mode : Mode}
    (h : exec (.dchar x y c font mode) s = .next t) :
    t.sends = s.sends ∨ ∃ m, refreshesOnce (.dchar x y c font mode) s m := by
  have silent {e : Status} (he : exec (.dchar x y c font mode) s = raise e s) : t.sends = s.sends := by
    cases h.symm.trans he
    rfl
  by_cases hc : s.configured = false
  · exact .inl (silent (exec_dchar_notConfigured hc))
  replace hc : s.configured = true := by simpa using hc
  cases hf : fontOf s.params.fonts font with
  | none => exact .inl (silent (exec_dchar_operandRange hc hf))
  | some f =>
    by_cases hwf : fontWf f = false
    · cases h.symm.trans (exec_dchar_refused hc hf hwf)
    replace hwf : fontWf f = true := by simpa using hwf
    by_cases hout : s.width < x + f.fw ∨ s.height < y + f.fh
    · exact .inl (silent (exec_dchar_outOfBounds hc hf hwf hout))
    obtain ⟨hx, hy⟩ : x + f.fw ≤ s.width ∧ y + f.fh ≤ s.height := by omega
    exact .inr ⟨(s.withGlyph f c mode x y).fb, y, f.fh, hy, fun tr =>
      exec_dchar_inside (s := s.withTransport tr) hc hf hwf hx hy⟩

/-- A command other than DSTR that answers a next state sends nothing or refreshes once. -/
theorem exec_sends_nothing_or_refreshesOnce {i : Instr} {s t : State}
    (hi : ∀ x y len spacing font mode, i ≠ .dstr x y len spacing font mode) (h : exec i s = .next t) :
    t.sends = s.sends ∨ ∃ m, refreshesOnce i s m := by
  cases i with
  | init | getpx | xlate | pageof => exact .inl (exec_sends_nothing (by simp) h)
  | clear value =>
    rcases execClear_cases value s with ⟨-, e⟩ | ⟨hc, -⟩
    · cases h.symm.trans e
      exact .inl rfl
    · exact .inr ⟨(s.filled value).fb, 0, s.height, by simp, fun tr =>
        exec_clear_configured (s := s.withTransport tr) hc value⟩
  | wrreg x y w k => exact exec_wrreg_refreshes h
  | dchar x y c font m => exact exec_dchar_refreshes h
  | dstr x y len spacing font mode => exact absurd rfl (hi x y len spacing font mode)

/-- A command is its own first characters, unless it is a DSTR. -/
theorem firstChars_of_ne_dstr {i : Instr} (hi : ∀ x y len spacing font mode, i ≠ .dstr x y len spacing font mode)
    (n : Nat) : firstChars n i = i := by
  cases i with
  | dstr x y len spacing font mode => exact absurd rfl (hi x y len spacing font mode)
  | init | clear | getpx | wrreg | dchar | xlate | pageof => rfl

/-- A command with one refresh step leaves its store, every record acknowledged. -/
theorem refreshesOnce.exists_refreshedAs {i : Instr} {s : State} {m : Memory} (h : refreshesOnce i s m)
    (hi : ∀ x y len spacing font mode, i ≠ .dstr x y len spacing font mode) :
    ∃ v, refreshedAs i s v ∧ rowRecord v = rowRecord (s.withFb m) := by
  obtain ⟨y, n, hn, run⟩ := h
  obtain ⟨v, hv, hrec⟩ := finish_flushRows_acknowledged (y := y) (n := n) (m := 1 * s.height)
    (v := (s.withFb m).withTransport (List.replicate (1 * s.height) (.ack .ok))) (by omega) rfl
  refine ⟨v, ⟨1, Nat.one_pos, ?_⟩, hrec⟩
  rw [firstChars_of_ne_dstr hi]
  exact (run _).trans hv

/-- The records of a command other than DSTR: rows of the raster that its refresh step reads, which is the one it
leaves unless it is abandoned. -/
theorem exec_records {i : Instr} {s t : State}
    (hi : ∀ x y len spacing font mode, i ≠ .dstr x y len spacing font mode) (h : exec i s = .next t) :
    ∃ new, t.sends = s.sends ++ new ∧ (∀ r ∈ new, ∃ v, refreshedAs i s v ∧ showsRowOf s v r) ∧
      (t.resets = s.resets → ∀ r ∈ new, showsRowOf s t r) := by
  rcases exec_sends_nothing_or_refreshesOnce hi h with hs | ⟨m, hm⟩
  · exact ⟨[], by simp [hs], by simp, by simp⟩
  obtain ⟨v, hv, hrec⟩ := hm.exists_refreshedAs hi
  obtain ⟨y, n, hn, run⟩ := hm
  obtain ⟨rows, hrows, hsends, hleft⟩ := finish_flushRows_records ((run s.transport).symm.trans h)
  have shows (u : State) (hu : rowRecord u = rowRecord (s.withFb m)) :
      ∀ r ∈ rows.map (rowRecord (s.withFb m)), showsRowOf s u r := by
    intro r hr
    obtain ⟨row, hrow, rfl⟩ := List.mem_map.mp hr
    exact rowRecord_showsRowOf ((hrows row hrow).trans_le hn) (congrFun hu row) rfl rfl rfl
  exact ⟨_, hsends, fun r hr => ⟨v, hv, shows v hrec r hr⟩, fun hr => shows t (hleft hr)⟩

/-! ## The records of a string

Each shows a row of the raster that the characters drawn so far leave (R163). -/

/-- If the first `k` characters of a string fit, they do so as a string of their own. -/
theorem le_glyphsThatFit_self {W fw sp cur len k : Nat} (h : k ≤ glyphsThatFit W fw sp cur len) :
    k ≤ glyphsThatFit W fw sp cur k := by
  by_cases hx : cur + fw ≤ W
  · rw [glyphsThatFit, if_pos hx] at h ⊢
    exact le_min le_rfl (h.trans (min_le_right ..))
  · rw [glyphsThatFit_zero (Nat.lt_of_not_le hx)] at h ⊢
    exact h

/-- A DSTR all of whose characters fit leaves the raster of its glyphs, every record acknowledged. -/
theorem exec_dstr_acknowledged {s : State} {x y k sp font : Nat} {mode : Mode} {f : Font}
    {rest : List TransportEvent} (hc : s.configured = true) (hf : fontOf s.params.fonts font = some f)
    (hwf : fontWf f = true) (hk : k ≤ s.params.opbCapacity) (hfit : k ≤ glyphsThatFit s.width f.fw sp x k)
    (hy : y + f.fh ≤ s.height) (hack : s.Acknowledged (k * f.fh) rest) :
    ∃ t, exec (.dstr x y k sp font mode) s = .next t ∧
      rowRecord t = rowRecord (s.withGlyphs f mode (f.fw + sp) y (s.opbCodes k) x) := by
  obtain ⟨rs, n, hloop⟩ := drawString_raster (mode := mode) (fontWf_pos hwf).1 (s.opbCodes k) x 0 s
    (by rwa [length_opbCodes]) hy rest (by rwa [length_opbCodes])
  exact ⟨_, (exec_dstr_inside hc hf hwf hk).trans (congrArg finish hloop), rfl⟩

/-- The raster of the first `k` characters, if they fit, is one that a refresh step of the DSTR reads. -/
theorem refreshedAs_withGlyphs {s : State} {x y len sp font k : Nat} {mode : Mode} {f : Font}
    (hc : s.configured = true) (hf : fontOf s.params.fonts font = some f) (hwf : fontWf f = true)
    (hlen : len ≤ s.params.opbCapacity) (hk : 0 < k) (hfit : k ≤ glyphsThatFit s.width f.fw sp x len)
    (hy : y + f.fh ≤ s.height) :
    ∃ v, refreshedAs (.dstr x y len sp font mode) s v ∧
      rowRecord v = rowRecord (s.withGlyphs f mode (f.fw + sp) y (s.opbCodes k) x) := by
  have hklen : k ≤ len := hfit.trans (glyphsThatFit_le_len ..)
  have henough : k * f.fh ≤ k * s.height := Nat.mul_le_mul_left k (by omega)
  obtain ⟨v, hv, hrec⟩ := exec_dstr_acknowledged (mode := mode) (y := y)
    (s := s.withTransport (List.replicate (k * s.height) (.ack .ok)))
    (rest := List.replicate (k * s.height - k * f.fh) (.ack .ok))
    hc hf hwf (hklen.trans hlen) (le_glyphsThatFit_self hfit) hy
    (by rw [State.Acknowledged, List.replicate_append_replicate, Nat.add_sub_cancel' henough]; rfl)
  rw [withGlyphs_withTransport] at hrec
  refine ⟨v, ⟨k, hk, ?_⟩, hrec⟩
  rw [firstChars, Nat.min_eq_left hklen]
  exact hv

/-- The records of a DSTR: rows of the rasters that its first characters leave. -/
theorem exec_dstr_records {s t : State} {x y len sp font : Nat} {mode : Mode}
    (h : exec (.dstr x y len sp font mode) s = .next t) :
    ∃ new, t.sends = s.sends ++ new ∧
      ∀ r ∈ new, ∃ v, refreshedAs (.dstr x y len sp font mode) s v ∧ showsRowOf s v r := by
  have silent {e : Status} (he : exec (.dstr x y len sp font mode) s = raise e s) : ∃ new,
      t.sends = s.sends ++ new ∧
        ∀ r ∈ new, ∃ v, refreshedAs (.dstr x y len sp font mode) s v ∧ showsRowOf s v r := by
    cases h.symm.trans he
    exact ⟨[], by simp, by simp⟩
  by_cases hc : s.configured = false
  · exact silent (exec_dstr_notConfigured hc)
  replace hc : s.configured = true := by simpa using hc
  cases hf : fontOf s.params.fonts font with
  | none => exact silent (exec_dstr_noFont hc hf)
  | some f =>
    by_cases hlen : s.params.opbCapacity < len
    · exact silent (exec_dstr_tooLong hc hf hlen)
    replace hlen := Nat.not_lt.mp hlen
    by_cases hwf : fontWf f = false
    · cases h.symm.trans (exec_dstr_refused hc hf hwf hlen)
    replace hwf : fontWf f = true := by simpa using hwf
    obtain ⟨new, hsends, hnew⟩ := drawString_records (fontWf_pos hwf).1 (s.opbCodes len) x 0 s t
      ((exec_dstr_inside hc hf hwf hlen).symm.trans h)
    refine ⟨new, hsends, fun r hr => ?_⟩
    obtain ⟨k, row, hk, hfit, hy, -, hrow, rfl⟩ := hnew r hr
    rw [length_opbCodes] at hfit
    rw [take_opbCodes s (hfit.trans (glyphsThatFit_le_len ..))]
    obtain ⟨v, hv, hrec⟩ := refreshedAs_withGlyphs (mode := mode) hc hf hwf hlen hk hfit hy
    obtain ⟨hb, hvar, hh⟩ := withGlyphs_geometry f mode (f.fw + sp) y (s.opbCodes k) x s
    exact ⟨v, hv, rowRecord_showsRowOf (hrow.trans_le hy) (congrFun hrec row) hb hvar hh⟩

/-- Settles O41: a DSTR's records by its loop, those of every other command by its one refresh step. -/
theorem recordsAreWholeRows : Obligations.RecordsAreWholeRows := by
  refine ⟨fun i s t h => ?refreshed, fun i s t hi h hr => ?left, fun i s t hi h => exec_sends_nothing hi h⟩
  case refreshed =>
    have records : ∃ new, t.sends = s.sends ++ new ∧ ∀ r ∈ new, ∃ v, refreshedAs i s v ∧ showsRowOf s v r := by
      by_cases hi : ∀ x y len spacing font mode, i ≠ .dstr x y len spacing font mode
      · obtain ⟨new, hsends, hnew, -⟩ := exec_records hi h
        exact ⟨new, hsends, hnew⟩
      · push Not at hi
        obtain ⟨x, y, len, sp, font, mode, rfl⟩ := hi
        exact exec_dstr_records h
    obtain ⟨new, hsends, hnew⟩ := records
    refine ⟨new, hsends, fun r hr => ?_⟩
    obtain ⟨v, hv, row, hrow⟩ := hnew r hr
    exact ⟨v, row, hv, hrow⟩
  case left =>
    obtain ⟨new, hsends, -, hnew⟩ := exec_records hi h
    refine ⟨new, hsends, fun r hr' => ?_⟩
    obtain ⟨row, hrow, -, haddr, hbytes, -⟩ := hnew hr r hr'
    exact ⟨row, hrow, haddr, hbytes⟩

end Sys2Proof.Machine
end

section
/-! PROOFS. The statements about the common entry of every command and about rejection: the illegal words, the step
that runs a decoded one, the status codes, and that the checks read neither memory. -/

namespace Sys2Proof.Machine

/-! ## The common entry -/

/-- Settles O7: the state in which the host's move is taken is the one without that move. -/
theorem stepRunsTheDecodedCommand : Obligations.StepRunsTheDecodedCommand :=
  fun _ _ _ _ => step_command

/-- An illegal word ends with BAD_COMMAND, before the configuration is looked at (R225). -/
theorem step_illegal {s : State} {cw : CmdWord} {rest : List HostAction} {e : Illegal}
    (hh : s.host = .writeReg 0 cw :: rest) (hf : s.fault = false) (hd : decode cw = .error e) :
    step s = raise .badCommand (s.withHost rest) := by
  have hf' : ¬ (s.withHost rest).fault = true := by simp [hf]
  rw [step_of_host hh, hostMove, writeRegister, if_pos rfl, execute, if_neg hf', hd]

/-- The decoder is total: a word is legal or illegal. -/
theorem decode_error {cw : CmdWord} : (∃ e, decode cw = .error e) ↔ ¬ ∃ i, decode cw = .ok i := by
  cases decode cw <;> simp

/-- Bit 57 of a word is the upper bit of its field `mode` (R81). -/
theorem getLsbD_57_iff_mode (cw : CmdWord) : cw.getLsbD 57 = true ↔ 2 ≤ (fieldsOf cw).mode := by
  simp only [BitVec.getLsbD, Nat.testBit_eq_decide_div_mod_eq, decide_eq_true_iff, fieldsOf]
  omega

/-- Settles O6: a word is illegal when no command has its fields, which for each opcode is to say that a reserved field
is not 0 or an enumerated one holds no number of its enumeration. -/
theorem illegalWordsOnlyReportBadCommand : Obligations.IllegalWordsOnlyReportBadCommand := by
  refine ⟨fun cw => ?cases, ⟨.opcode, by decide⟩, ⟨.opcode, by decide⟩, fun s cw rest e => step_illegal⟩
  case cases =>
    simp only [decode_error, decode_ok, getLsbD_57_iff_mode, Instr.exists_iff, fieldsOfInstr]
    obtain ⟨hop, -, hmode, -⟩ := fieldsOf_fit cw
    generalize fieldsOf cw = f at hop hmode ⊢
    obtain ⟨op, font, mode, ch, h, w, y, x⟩ := f
    replace hop : op < 16 := hop
    replace hmode : mode < 4 := hmode
    interval_cases op <;>
      simp [exists_variantField, exists_modeField] <;>
      omega

/-! ## The codes -/

/-- However a command ends, it has written the code of a named status other than the reserved one (R220). -/
theorem exec_writtenCode {i : Instr} {s t : State} (h : exec i s = .next t) : writtenCode t.status := by
  have ok : writtenCode (statusCode .ok) := writtenCode_statusCode (by simp)
  cases exec_ended h with
  | rejected e he ht =>
    obtain ⟨-, -, he⟩ := he
    exact ht ▸ writtenCode_statusCode he
  | allocFailed _ ht => exact ht ▸ writtenCode_statusCode (e := .allocFailure) (by simp)
  | constructed _ _ _ _ _ ht => exact ht ▸ ok
  | answered _ _ _ ht => exact ht ▸ ok
  | drawn _ _ _ _ ht => exact ht ▸ ok
  | drawnString _ _ _ _ ht => exact ht ▸ ok
  | failed _ _ _ _ ht => exact ht ▸ writtenCode_statusCode (e := .transportFailure) (by simp)
  | abandoned _ _ ht _ => exact ht ▸ ok

/-- Settles O49: the codes of the named statuses but the reserved one are below 9, and none of them is 3. -/
theorem statusCodesAreTheWrittenOnes : Obligations.StatusCodesAreTheWrittenOnes :=
  fun _ _ _ => exec_writtenCode

/-! ## Rejection does not read the memories

A command that passes its checks ends with OK or TRANSPORT_FAILURE, or is abandoned; and a check reads the
configuration, the parameters and the operands only. -/

/-- The command's end, if it has one, is no rejection (R204). -/
def accepted (r : Result) : Prop := ∀ t, r = .next t → ¬ rejected t.status

theorem accepted_complete (s : State) : accepted (complete s) := by
  rintro t ⟨⟩ ⟨hok, -⟩
  exact hok rfl

/-- However the transport answers, a refresh step ends in no rejection (R205, R250). -/
theorem accepted_flushRows (y n : Nat) (s : State) : accepted (finish (flushRows y n s)) := by
  rintro t ht ⟨hok, hfailure⟩
  rw [flushRows] at ht
  rcases flushEach_cases (List.range' y n) s with ⟨_, _, -, e⟩ | ⟨_, _, _, -, -, e | e⟩ | ⟨-, e⟩ <;>
    rw [e] at ht <;> cases ht
  · exact hok rfl
  · exact hfailure rfl
  · exact hok rfl

theorem drawGlyph_going_height {f : Font} {c x y : Nat} {mode : Mode} {s u : State}
    (hg : drawGlyph f c mode x y s = .going u) : u.height = s.height := by
  rw [drawGlyph_eq, flushRows] at hg
  rcases flushEach_records (List.range' y f.fh) (s.withGlyph f c mode x y) with ⟨_, _, h⟩ | ⟨_, h, -⟩ <;>
    cases h.symm.trans hg
  rfl

/-- A string whose rows fit the height is not rejected: only the vertical check could do so. -/
theorem accepted_drawString {f : Font} {y : Nat} {s : State} (hy : y + f.fh ≤ s.height) (mode : Mode) (sp : Nat)
    (chars : List Nat) (cur n : Nat) : accepted (finish (drawString f mode sp y chars cur n s)) := by
  induction chars generalizing cur n s with
  | nil => exact accepted_complete _
  | cons c rest ih =>
    by_cases hw : s.width < cur + f.fw
    · rw [drawString_crossing hw]
      exact accepted_complete _
    replace hw := Nat.not_lt.mp hw
    cases hg : drawGlyph f c mode cur y s with
    | going u =>
      rw [drawString_going hw hy hg]
      exact ih (drawGlyph_going_height hg ▸ hy) _ _
    | ended r =>
      have hr : finish (drawGlyph f c mode cur y s) = r := congrArg finish hg
      rw [drawString_ended hw hy hg]
      exact hr ▸ accepted_flushRows y f.fh _

/-- The state with other contents of `FB` and of `OPB`. -/
def State.withMemories (s : State) (m o : Memory) : State := (s.withFb m).withOpb o

/-- The command ends the same way whatever the memories hold, and leaves them as they are; or it is not rejected. -/
def rejectsAlike (i : Instr) (s : State) : Prop :=
  (∃ v : State, ∀ m o, exec i (s.withMemories m o) = .next (v.withMemories m o)) ∨ accepted (exec i s)

theorem rejectsAlike_of_raise {i : Instr} {s : State} {e : Status}
    (h : ∀ m o, exec i (s.withMemories m o) = raise e (s.withMemories m o)) : rejectsAlike i s :=
  .inl ⟨s.withStatus e, h⟩

/-! GETPX's check of the coordinates (R115). -/

theorem exec_getpx_outOfBounds {s : State} {x y : Nat} (hc : s.configured = true)
    (hout : s.width ≤ x ∨ s.height ≤ y) : exec (.getpx x y) s = raise .outOfBounds s := by
  simp only [exec, execGetpx]
  rw [if_neg (by simp [hc]), if_pos hout]

theorem exec_getpx_answers {s : State} {x y : Nat} (hc : s.configured = true)
    (hin : ¬ (s.width ≤ x ∨ s.height ≤ y)) :
    exec (.getpx x y) s = complete (s.withResult 0 (s.pix x y).toNat) := by
  simp only [exec, execGetpx]
  rw [if_neg (by simp [hc]), if_neg hin]

/-! Each command's checks, one after another: the first that fails rejects the command whatever the memories hold. -/

section checks
variable {s : State}

/-- INIT's checks read its operands, the parameters and `FLAGS.CONFIGURED` (R111). -/
theorem init_rejectsAlike (w h : Nat) (v : Variant) : rejectsAlike (.init w h v) s := by
  by_cases hbad : s.configured = true ∨ w = 0 ∨ h = 0 ∨ (v = .interleaved ∧ h % 2 = 1)
  · exact rejectsAlike_of_raise fun _ _ => exec_init_badConfig hbad
  obtain ⟨hc, hw, hh, hodd⟩ : s.configured = false ∧ 0 < w ∧ 0 < h ∧ (v = .interleaved → h % 2 = 0) := by
    simp only [not_or, not_and, Bool.not_eq_true] at hbad
    obtain ⟨hc, hw, hh, hodd⟩ := hbad
    exact ⟨hc, Nat.pos_of_ne_zero hw, Nat.pos_of_ne_zero hh, fun hv => Nat.mod_two_ne_one.mp (hodd hv)⟩
  have checked := fun m o => exec_init_checked (s := s.withMemories m o) hc hw hh hodd
  by_cases hcap : h * ceil8 w > s.params.fbCapacity
  · exact .inl ⟨s.withFault.withStatus .allocFailure, fun m o => (checked m o).trans (if_pos hcap)⟩
  · have built : exec (.init w h v) s = .next (s.afterInit w h v) := (checked s.fb s.opb).trans (if_neg hcap)
    exact .inr (built ▸ accepted_complete _)

variable (hc : s.configured = true)
include hc

theorem getpx_rejectsAlike (x y : Nat) : rejectsAlike (.getpx x y) s := by
  by_cases hout : s.width ≤ x ∨ s.height ≤ y
  · exact rejectsAlike_of_raise fun _ _ => exec_getpx_outOfBounds hc hout
  · exact .inr (exec_getpx_answers hc hout ▸ accepted_complete _)

theorem xlate_rejectsAlike (row : Nat) : rejectsAlike (.xlate row) s := by
  by_cases hrow : s.height ≤ row
  · exact rejectsAlike_of_raise fun _ _ => exec_xlate_outOfBounds hc hrow
  · exact .inr (exec_xlate_answers hc (Nat.not_le.mp hrow) ▸ accepted_complete _)

theorem pageof_rejectsAlike (y : Nat) : rejectsAlike (.pageof y) s := by
  by_cases hy : s.height ≤ y
  · exact rejectsAlike_of_raise fun _ _ => exec_pageof_outOfBounds hc hy
  · exact .inr (exec_pageof_answers hc (Nat.not_le.mp hy) ▸ accepted_complete _)

/-- WRREG's checks compare the size of its source, not the source, with the capacity of `OPB` (R136). -/
theorem wrreg_rejectsAlike (x y w h : Nat) : rejectsAlike (.wrreg x y w h) s := by
  by_cases hcap : s.params.opbCapacity < h * ceil8 w
  · exact rejectsAlike_of_raise fun _ _ => exec_wrreg_operandRange hc hcap
  replace hcap := Nat.not_lt.mp hcap
  by_cases hout : s.width < x + w ∨ s.height < y + h
  · exact rejectsAlike_of_raise fun _ _ => exec_wrreg_outOfBounds hc hcap hout
  obtain ⟨hx, hy⟩ : x + w ≤ s.width ∧ y + h ≤ s.height := by omega
  by_cases hempty : w = 0 ∨ h = 0
  · exact .inr (exec_wrreg_empty hc hcap hx hy hempty ▸ accepted_complete _)
  · exact .inr (exec_wrreg_inside hc hcap hx hy (by omega) (by omega) ▸ accepted_flushRows _ _ _)

theorem dchar_rejectsAlike (x y c font : Nat) (mode : Mode) : rejectsAlike (.dchar x y c font mode) s := by
  cases hf : fontOf s.params.fonts font with
  | none => exact rejectsAlike_of_raise fun _ _ => exec_dchar_operandRange hc hf
  | some f =>
    cases hwf : fontWf f with
    | false => exact .inr (exec_dchar_refused hc hf hwf ▸ nofun)
    | true =>
      by_cases hout : s.width < x + f.fw ∨ s.height < y + f.fh
      · exact rejectsAlike_of_raise fun _ _ => exec_dchar_outOfBounds hc hf hwf hout
      obtain ⟨hx, hy⟩ : x + f.fw ≤ s.width ∧ y + f.fh ≤ s.height := by omega
      exact .inr (exec_dchar_inside hc hf hwf hx hy ▸ accepted_flushRows _ _ _)

/-- The vertical check of DSTR stands in its loop, but can fail at the first glyph only, and the string's characters
do not matter for it (R163). -/
theorem dstr_rejectsAlike (x y len sp font : Nat) (mode : Mode) : rejectsAlike (.dstr x y len sp font mode) s := by
  cases hf : fontOf s.params.fonts font with
  | none => exact rejectsAlike_of_raise fun _ _ => exec_dstr_noFont hc hf
  | some f =>
    by_cases hlen : s.params.opbCapacity < len
    · exact rejectsAlike_of_raise fun _ _ => exec_dstr_tooLong hc hf hlen
    replace hlen := Nat.not_lt.mp hlen
    cases hwf : fontWf f with
    | false => exact .inr (exec_dstr_refused hc hf hwf hlen ▸ nofun)
    | true =>
      by_cases hy : y + f.fh ≤ s.height
      · exact .inr (exec_dstr_inside hc hf hwf hlen ▸ accepted_drawString hy _ _ _ _ _)
      replace hy := Nat.not_le.mp hy
      rcases Nat.eq_zero_or_pos (glyphsThatFit s.width f.fw sp x len) with hnone | hsome
      · exact .inr (exec_dstr_nothing hc hf hwf hlen hnone ▸ accepted_complete _)
      · exact rejectsAlike_of_raise fun _ _ => exec_dstr_outOfBounds hc hf hwf hlen hsome hy

end checks

/-- No command's checks read the memories (R224). -/
theorem exec_rejectsAlike (i : Instr) (s : State) : rejectsAlike i s := by
  by_cases hi : ∃ w h v, i = .init w h v
  · obtain ⟨w, h, v, rfl⟩ := hi
    exact init_rejectsAlike w h v
  push Not at hi
  cases hc : s.configured with
  | false =>
    exact rejectsAlike_of_raise (e := .notConfigured) fun m o =>
      unconfiguredEngineAcceptsOnlyInit i (s.withMemories m o) hc hi
  | true =>
    cases i with
    | init w h v => exact absurd rfl (hi w h v)
    | clear v => exact .inr (exec_clear_configured hc v ▸ accepted_flushRows _ _ _)
    | getpx x y => exact getpx_rejectsAlike hc x y
    | wrreg x y w h => exact wrreg_rejectsAlike hc x y w h
    | dchar x y c font mode => exact dchar_rejectsAlike hc x y c font mode
    | dstr x y len sp font mode => exact dstr_rejectsAlike hc x y len sp font mode
    | xlate row => exact xlate_rejectsAlike hc row
    | pageof y => exact pageof_rejectsAlike hc y

/-- Settles O37: a command that is rejected ends alike for all contents of the memories, its own among them. -/
theorem rejectionDoesNotReadTheMemories : Obligations.RejectionDoesNotReadTheMemories := by
  intro i s t m o ht hrejected
  rcases exec_rejectsAlike i s with ⟨v, alike⟩ | haccepted
  · cases (alike s.fb s.opb).symm.trans ht
    exact alike m o
  · exact absurd hrejected (haccepted t ht)

end Sys2Proof.Machine
end

section
/-! PROOFS. The statements about reset and about the end of a command: the reset state, a reset between commands and
during one, and that only a silent transport keeps a command from its end. -/

namespace Sys2Proof.Machine

/-! ## Reset between commands -/

/-- Settles O12: the fields of the reset state, whose host has no move. -/
theorem resetStateValues : Obligations.ResetStateValues :=
  ⟨rfl, rfl, rfl, rfl, rfl, rfl, rfl, rfl, step_of_host_nil rfl⟩

/-- After a reset the host has written no byte of `OPB`, so each is a free value of that reset (R34). -/
theorem opbByte_afterReset (s : State) {a : Nat} (ha : a < s.params.opbCapacity) :
    s.afterReset.opbByte a = Config.freeOpbByte (s.resets + 1) a := if_pos ha

/-- Settles O13: the host's move leads to `afterReset` of the state in which it is taken. -/
theorem hostResetMove : Obligations.HostResetMove := by
  intro s rest hh
  exact ⟨(s.withHost rest).afterReset, step_of_host hh, rfl, rfl, rfl, rfl, rfl, rfl, rfl, rfl, rfl, rfl,
    fun a => opbByte_afterReset (s.withHost rest)⟩

/-! ## CLEAR at a row whose record is not acknowledged -/

/-- CLEAR when the answer to row `k` is not `ok`: the filled raster's rows up to `k` go out, and the answer decides
(R113, R205, R250, R258). -/
theorem exec_clear_stops {s : State} {k : Nat} {e : TransportEvent} {rest : List TransportEvent}
    (hc : s.configured = true) (hk : k < s.height) (he : e ≠ .ack .ok) (h : s.AcknowledgedThen k e rest)
    (value : Bool) :
    exec (.clear value) s = endOf e ((s.filled value).afterSends
      ((List.range' 0 (k + 1)).map (rowRecord (s.filled value))) rest s.ackDraws) := by
  have hrow : k < (List.range' 0 s.height).length := by rwa [List.length_range']
  rw [exec_clear_configured hc, flushEach_stops hrow he (s := s.filled value) h, take_range' hk]
  rfl

/-! ## Reset during a command -/

/-- A command that counts another reset has drawn and was then abandoned (R250). -/
theorem exec_abandoned_drawing {i : Instr} {s t : State} (h : exec i s = .next t) (hr : t.resets ≠ s.resets) :
    ∃ u, Drawn s u ∧ t = u.afterReset := by
  rcases (exec_ended h).frame with ⟨u, hu, ht⟩ | ⟨-, -, ht⟩ | habandoned
  · exact absurd ((congrArg State.resets ht).trans hu.resets_eq) hr
  · exact absurd (congrArg State.resets ht) hr
  · exact habandoned

/-- What a reset keeps of a state that has drawn is, the records and the transport's moves aside, what it would have
kept before. -/
theorem Drawn.afterReset_eq {s u : State} (h : Drawn s u) :
    u.afterReset = { State.reset with
      params := s.params, host := s.host, reads := s.reads, resets := s.resets + 1,
      sends := u.sends, transport := u.transport, ackDraws := u.ackDraws } := by
  rw [State.afterReset, h.params_eq, h.host_eq, h.reads_eq, h.resets_eq]

/-- Settles O14: an abandoned command had only drawn, and CLEAR is abandoned at the row whose answer is the reset. -/
theorem abandonedCommandIsAReset : Obligations.AbandonedCommandIsAReset := by
  refine ⟨fun i s t h hr => ?_, fun s value k rest hc hk hack =>
    ⟨_, exec_clear_stops hc hk (by simp) hack value, rfl, rfl, ?_⟩⟩
  · obtain ⟨u, hu, rfl⟩ := exec_abandoned_drawing h hr
    exact ⟨hu.sends_only_added, hu.afterReset_eq⟩
  · simp [State.filled]

/-! ## The end of a command -/

/-- A drawing command stops only at a record that is never answered (R258). -/
theorem endsDrawing.never_of_fault {P : State → Prop} {s : State} {e : Fault} (h : endsDrawing P s (.fault e)) :
    .never ∈ s.transport := by
  rcases h with ⟨_, -, -, ⟨⟩⟩ | ⟨_, -, -, ⟨⟩⟩ | ⟨_, -, -, ⟨⟩⟩ | ⟨hnever, -⟩
  exact hnever

/-- A command stops only at a record that is never answered: the others end at a check or complete. -/
theorem exec_fault {i : Instr} {s : State} {e : Fault} (h : exec i s = .fault e) : .never ∈ s.transport := by
  have stopped {P : State → Prop} (hend : endsDrawing P s (exec i s)) : .never ∈ s.transport :=
    (h ▸ hend).never_of_fault
  cases i with
  | init w hh v =>
    rcases execInit_cases w hh v s with h' | ⟨-, h'⟩ | ⟨-, -, -, -, -, h'⟩ <;> cases h'.symm.trans h
  | clear v =>
    rcases execClear_cases v s with ⟨-, h'⟩ | ⟨-, hend⟩
    · cases h'.symm.trans h
    · exact stopped hend
  | getpx x y =>
    rcases execGetpx_cases x y s with ⟨_, -, h'⟩ | ⟨-, -, -, h'⟩ <;> cases h'.symm.trans h
  | wrreg x y w hh =>
    rcases execWrreg_cases x y w hh s with ⟨_, -, h'⟩ | ⟨-, h'⟩ | ⟨-, -, -, -, hend⟩
    · cases h'.symm.trans h
    · cases h'.symm.trans h
    · exact stopped hend
  | dchar x y c font m =>
    rcases execDchar_cases x y c font m s with ⟨_, -, h'⟩ | ⟨_, -, -, h'⟩ | ⟨_, -, -, -, -, hend⟩
    · cases h'.symm.trans h
    · cases h'.symm.trans h
    · exact stopped hend
  | dstr x y l sp font m =>
    rcases execDstr_cases (P := fun _ => True) (fun _ _ _ _ hu => hu) x y l sp font m s trivial
        (fun _ _ _ _ _ _ _ _ _ _ _ => trivial)
      with ⟨_, -, h'⟩ | ⟨_, -, -, h'⟩ | ⟨_, _, -, -, h'⟩ | hend
    · cases h'.symm.trans h
    · cases h'.symm.trans h
    · cases h'.symm.trans h
    · exact stopped (.inr hend)
  | xlate row =>
    rcases execXlate_cases row s with ⟨_, -, h'⟩ | ⟨-, -, h'⟩ <;> cases h'.symm.trans h
  | pageof y =>
    rcases execPageof_cases y s with ⟨_, -, h'⟩ | ⟨-, -, h'⟩ <;> cases h'.symm.trans h

/-- Settles O42: of the three outcomes, a fault needs a silent transport and a refusal a font that breaks R151. -/
theorem everyCommandEndsIfAnswered : Obligations.EveryCommandEndsIfAnswered := by
  refine ⟨fun i s hanswers hfonts => ?_, fun _ _ _ => exec_fault,
    fun s value k rest hc hk hack => exec_clear_stops hc hk (by simp) hack value⟩
  obtain ⟨-, -, refused⟩ := onlyAFontOutsideTheModelIsRefused
  cases h : exec i s with
  | next t => exact ⟨t, rfl⟩
  | fault e => exact absurd (exec_fault h) hanswers
  | refused e => exact absurd hfonts (refused i s e h)

end Sys2Proof.Machine
end
